-- ==== Sys2Proof/Word.lean ====
section
/-! DEFINITION. The word, the byte and the register index of the wormotron core (spec/10_state.md R10, spec/00_scope.md R8). -/

namespace Sys2Proof

/-- A 16-bit value: a register's contents, an address, an immediate (R8, R10). -/
abbrev Word := BitVec 16

/-- One memory cell, one instruction byte (R8, R28). -/
abbrev Byte := BitVec 8

/-- A register's number, 0 to 31 (R10). -/
abbrev RegIdx := Fin 32

/-- Register 0 holds the syscall number when `sys` executes (R12). -/
abbrev r0 : RegIdx := 0

/-- Register 29, the stack pointer (R14). -/
abbrev spIdx : RegIdx := 29

/-- Register 30, the instruction pointer (R15). -/
abbrev ipIdx : RegIdx := 30

/-- Register 31, the flags (R16). -/
abbrev flIdx : RegIdx := 31

end Sys2Proof
end

