-- ==== Sys2Proof/Syntax.lean ====
section
/-! DEFINITION. The 22 instructions of R57 as terms, their argument schemes (R51 to R56), their mnemonics and the
register names of R27. A register operand is the instruction's register byte, 0 to 255, as R21 has it; which of them
name a register is `Instr.wellFormed`'s question. -/

namespace Sys2Proof

/-- The six argument schemes (R51 to R56). -/
inductive Scheme where
  | none | regs | regImm | regReg | reg | imm
  deriving DecidableEq, Repr

/-- The 22 operations of the opcode map, in the order of R57. -/
inductive Op where
  | nop | ldi | ldr | ldrb | add | sub | mul | div | mod | and | or | xor | shl | shr
  | jmp | jz | jr | sti | stib | str | strb | sys
  deriving DecidableEq, Repr

/-- An instruction with its operands (R57, R67). Register operands are bytes; immediates are 16-bit. -/
inductive Instr where
  | nop
  | ldi  (rd : Byte) (imm : Word)
  | ldr  (rd ra : Byte)
  | ldrb (rd ra : Byte)
  | add  (rd ra rb : Byte)
  | sub  (rd ra rb : Byte)
  | mul  (rd ra rb : Byte)
  | div  (rd ra rb : Byte)
  | mod  (rd ra rb : Byte)
  | and  (rd ra rb : Byte)
  | or   (rd ra rb : Byte)
  | xor  (rd ra rb : Byte)
  | shl  (rd ra rb : Byte)
  | shr  (rd ra rb : Byte)
  | jmp  (imm : Word)
  | jz   (imm : Word)
  | jr   (ra : Byte)
  | sti  (rs : Byte) (imm : Word)
  | stib (rs : Byte) (imm : Word)
  | str  (rs ra : Byte)
  | strb (rs ra : Byte)
  | sys
  deriving DecidableEq, Repr

/-- The operation an instruction is of. -/
def Instr.op : Instr → Op
  | .nop => .nop
  | .ldi _ _ => .ldi
  | .ldr _ _ => .ldr
  | .ldrb _ _ => .ldrb
  | .add _ _ _ => .add
  | .sub _ _ _ => .sub
  | .mul _ _ _ => .mul
  | .div _ _ _ => .div
  | .mod _ _ _ => .mod
  | .and _ _ _ => .and
  | .or _ _ _ => .or
  | .xor _ _ _ => .xor
  | .shl _ _ _ => .shl
  | .shr _ _ _ => .shr
  | .jmp _ => .jmp
  | .jz _ => .jz
  | .jr _ => .jr
  | .sti _ _ => .sti
  | .stib _ _ => .stib
  | .str _ _ => .str
  | .strb _ _ => .strb
  | .sys => .sys

/-- The register byte an instruction writes its result to, if it has one: the loads, `ldi` and the ten operations. -/
def Instr.destByte : Instr → Option Byte
  | .ldi rd _ | .ldr rd _ | .ldrb rd _ => some rd
  | .add rd _ _ | .sub rd _ _ | .mul rd _ _ | .div rd _ _ | .mod rd _ _ => some rd
  | .and rd _ _ | .or rd _ _ | .xor rd _ _ | .shl rd _ _ | .shr rd _ _ => some rd
  | .nop | .jmp _ | .jz _ | .jr _ | .sti _ _ | .stib _ _ | .str _ _ | .strb _ _ | .sys => none

/-- The ten arithmetic and bitwise operations (R82): the only instructions that recompute Z. -/
def Op.isAlu : Op → Bool
  | .add | .sub | .mul | .div | .mod | .and | .or | .xor | .shl | .shr => true
  | .nop | .ldi | .ldr | .ldrb | .jmp | .jz | .jr | .sti | .stib | .str | .strb | .sys => false

/-- The three jumps, which write IP without naming it as a destination (R93 to R95). -/
def Op.isJump : Op → Bool
  | .jmp | .jz | .jr => true
  | .nop | .ldi | .ldr | .ldrb | .add | .sub | .mul | .div | .mod | .and | .or | .xor | .shl | .shr
  | .sti | .stib | .str | .strb | .sys => false

/-- The instructions that may reach the host: loads and stores through the MMIO table, `sys` through the syscall
table (R4, R30). -/
def Op.reachesHost : Op → Bool
  | .ldr | .ldrb | .sti | .stib | .str | .strb | .sys => true
  | .nop | .ldi | .add | .sub | .mul | .div | .mod | .and | .or | .xor | .shl | .shr | .jmp | .jz | .jr => false

/-- The mnemonic, as spec/opcode_table.json spells it (R57). -/
def Op.mnemonic : Op → String
  | .nop => "nop" | .ldi => "ldi" | .ldr => "ldr" | .ldrb => "ldrb"
  | .add => "add" | .sub => "sub" | .mul => "mul" | .div => "div" | .mod => "mod"
  | .and => "and" | .or => "or" | .xor => "xor" | .shl => "shl" | .shr => "shr"
  | .jmp => "jmp" | .jz => "jz" | .jr => "jr"
  | .sti => "sti" | .stib => "stib" | .str => "str" | .strb => "strb" | .sys => "sys"

/-- The assembler's register names: `a` to `z` are registers 0 to 25, 26 to 28 have none, then `sp`, `ip`, `fl` (R27). -/
def registerNames : List (Option String) :=
  ["a", "b", "c", "d", "e", "f", "g", "h", "i", "j", "k", "l", "m"].map some
  ++ ["n", "o", "p", "q", "r", "s", "t", "u", "v", "w", "x", "y", "z"].map some
  ++ [none, none, none, some "sp", some "ip", some "fl"]

end Sys2Proof
end

