-- ==== Sys2Proof/WellFormed.lean ====
section
/-! DEFINITION. Which instruction terms are instructions of the machine: every register byte the scheme uses names a
register, 0 to 31 (R21, R52 to R55). -/

namespace Sys2Proof

/-- A register byte names a register when it is 0 to 31 (R21). -/
def regByteOk (b : Byte) : Bool := decide (b.toNat < 32)

/-- Every register byte the instruction's scheme uses is in range (R62). -/
def Instr.wellFormed : Instr → Bool
  | .nop | .sys | .jmp _ | .jz _ => true
  | .ldi r _ | .sti r _ | .stib r _ | .jr r => regByteOk r
  | .ldr r a | .ldrb r a | .str r a | .strb r a => regByteOk r && regByteOk a
  | .add d a b | .sub d a b | .mul d a b | .div d a b | .mod d a b
  | .and d a b | .or d a b | .xor d a b | .shl d a b | .shr d a b =>
    regByteOk d && regByteOk a && regByteOk b

/-- The register byte that names register `i`. -/
def regByte (i : RegIdx) : Byte := BitVec.ofNat 8 i.val

end Sys2Proof
end

