-- ==== Sys2Proof/Decode.lean ====
section
/-! DEFINITION. From four bytes to an instruction and back (R50 to R62), the byte-order helpers both directions use,
and the image format (R71). The opcode numbering and the scheme table stand here and nowhere else (`OPCODE_NUMBERING`,
R6; the spec's decisions D1, D2, D4, D5; log entry 1). -/

namespace Sys2Proof

/-- `hi:lo`, the 16-bit value with high byte `hi` and low byte `lo` (R8). -/
def joinBytes (hi lo : Byte) : Word := hi ++ lo

/-- `v[15:8]` (R8). -/
def highByte (v : Word) : Byte := v.extractLsb' 8 8

/-- `v[7:0]` (R8). -/
def lowByte (v : Word) : Byte := v.extractLsb' 0 8

/-- The four bytes of an instruction, `b0` at the lowest address (R50). -/
structure InstrBytes where
  b0 : Byte
  b1 : Byte
  b2 : Byte
  b3 : Byte
  deriving DecidableEq, Repr

/-- The 32-bit word `W = B0:B1:B2:B3` as its four bytes (R8, R50). -/
def bytesOfWord (w : BitVec 32) : InstrBytes :=
  ⟨w.extractLsb' 24 8, w.extractLsb' 16 8, w.extractLsb' 8 8, w.extractLsb' 0 8⟩

/-- The opcode map's numbers (R57). -/
def opcodeOf : Op → Byte
  | .nop => 0x00
  | .ldi => 0x01
  | .ldr => 0x02
  | .ldrb => 0x03
  | .add => 0x04
  | .sub => 0x05
  | .mul => 0x06
  | .div => 0x07
  | .mod => 0x08
  | .and => 0x09
  | .or => 0x0A
  | .xor => 0x0B
  | .shl => 0x0C
  | .shr => 0x0D
  | .jmp => 0x0E
  | .jz => 0x0F
  | .jr => 0x10
  | .sti => 0x11
  | .stib => 0x12
  | .str => 0x13
  | .strb => 0x14
  | .sys => 0x15

/-- Every operation, in the order of R57. -/
def allOps : List Op :=
  [.nop, .ldi, .ldr, .ldrb, .add, .sub, .mul, .div, .mod, .and, .or, .xor, .shl, .shr,
   .jmp, .jz, .jr, .sti, .stib, .str, .strb, .sys]

/-- The operation an opcode byte selects, none when it is outside the valid range (R60). -/
def opOfByte (b : Byte) : Option Op := allOps.find? fun o => opcodeOf o == b

/-- The argument scheme of each operation (R57). -/
def schemeOf : Op → Scheme
  | .nop | .sys => .none
  | .ldi | .sti | .stib => .regImm
  | .ldr | .ldrb | .str | .strb => .regReg
  | .add | .sub | .mul | .div | .mod | .and | .or | .xor | .shl | .shr => .regs
  | .jmp | .jz => .imm
  | .jr => .reg

/-- The 16-bit immediate of the `reg-imm` and `imm` schemes: `B2:B3`, high byte first, used as is (R53, R56, R59). -/
def immField (w : InstrBytes) : Word := joinBytes w.b2 w.b3

/-- The instruction of operation `o` whose operand fields are those of `w`, each field where its scheme has it
(R51 to R56). Bytes the scheme does not use are not looked at (R58). -/
def assembleFields (o : Op) (w : InstrBytes) : Instr :=
  match o with
  | .nop => .nop
  | .ldi => .ldi w.b1 (immField w)
  | .ldr => .ldr w.b1 w.b2
  | .ldrb => .ldrb w.b1 w.b2
  | .add => .add w.b1 w.b2 w.b3
  | .sub => .sub w.b1 w.b2 w.b3
  | .mul => .mul w.b1 w.b2 w.b3
  | .div => .div w.b1 w.b2 w.b3
  | .mod => .mod w.b1 w.b2 w.b3
  | .and => .and w.b1 w.b2 w.b3
  | .or => .or w.b1 w.b2 w.b3
  | .xor => .xor w.b1 w.b2 w.b3
  | .shl => .shl w.b1 w.b2 w.b3
  | .shr => .shr w.b1 w.b2 w.b3
  | .jmp => .jmp (immField w)
  | .jz => .jz (immField w)
  | .jr => .jr w.b1
  | .sti => .sti w.b1 (immField w)
  | .stib => .stib w.b1 (immField w)
  | .str => .str w.b1 w.b2
  | .strb => .strb w.b1 w.b2
  | .sys => .sys

/-- What four bytes decode to (R62): an instruction, an opcode outside the valid range, or a used register byte above
31. -/
inductive Decoded where
  | instr (i : Instr)
  | invalid
  | badReg
  deriving DecidableEq, Repr

/-- `Decode` of R62, total on any four bytes. The opcode is judged before the register bytes (R109). -/
def decode (w : InstrBytes) : Decoded :=
  match opOfByte w.b0 with
  | none => .invalid
  | some o => if (assembleFields o w).wellFormed then .instr (assembleFields o w) else .badReg

/-- The four bytes of an instruction, with 0x00 in every unused byte (R58, R62, R67). -/
def encode (i : Instr) : InstrBytes :=
  match i with
  | .nop | .sys => ⟨opcodeOf i.op, 0, 0, 0⟩
  | .ldi r imm | .sti r imm | .stib r imm => ⟨opcodeOf i.op, r, highByte imm, lowByte imm⟩
  | .ldr r a | .ldrb r a | .str r a | .strb r a => ⟨opcodeOf i.op, r, a, 0⟩
  | .add d a b | .sub d a b | .mul d a b | .div d a b | .mod d a b
  | .and d a b | .or d a b | .xor d a b | .shl d a b | .shr d a b => ⟨opcodeOf i.op, d, a, b⟩
  | .jmp imm | .jz imm => ⟨opcodeOf i.op, 0, highByte imm, lowByte imm⟩
  | .jr a => ⟨opcodeOf i.op, a, 0, 0⟩

/-- `w` with 0x00 in each byte its scheme does not use (R51 to R56, R58). -/
def clearUnused (sc : Scheme) (w : InstrBytes) : InstrBytes :=
  match sc with
  | .none => ⟨w.b0, 0, 0, 0⟩
  | .regs | .regImm => w
  | .regReg => ⟨w.b0, w.b1, w.b2, 0⟩
  | .reg => ⟨w.b0, w.b1, 0, 0⟩
  | .imm => ⟨w.b0, 0, w.b2, w.b3⟩

/-- The binary image of a list of instructions: their bytes one after the other, no header (R68, R71). -/
def encodeImage : List Instr → List Byte
  | [] => []
  | i :: is => (encode i).b0 :: (encode i).b1 :: (encode i).b2 :: (encode i).b3 :: encodeImage is

/-- The bytes of a word as spec/opcode_table.json numbers them: `w`'s low `nbits` bits as the 32-bit word `W` (R57
"Reading `opcode_table.json`"; log entry 15). -/
def bytesOfTableWord (nbits w : Nat) : InstrBytes := bytesOfWord (BitVec.ofNat 32 (w % 2 ^ nbits))

/-- What this decoder reads from the instruction whose bits are `w`; none where it refuses. -/
def decodeTableWord (nbits w : Nat) : Option Instr :=
  match decode (bytesOfTableWord nbits w) with
  | .instr i => some i
  | .invalid | .badReg => none

end Sys2Proof
end

