-- ==== Sys2Proof/Machine/Flags.lean ====
section
/-! DEFINITION. The flags register's bits as functions of its 16-bit value (R16). Z and HALT are the only bits the core
reads or writes as flags; each update is a read-modify-write of one bit (R9, R18, R20). -/

namespace Sys2Proof.Machine

/-- Z, bit 0 (R16, R17). -/
def zFlag (fl : Word) : Bool := fl.getLsbD 0

/-- C, bit 1: defined in the ISA, never written or read as a flag (R18). -/
def carryFlag (fl : Word) : Bool := fl.getLsbD 1

/-- O, bit 2: defined in the ISA, never written or read as a flag (R18). -/
def overflowFlag (fl : Word) : Bool := fl.getLsbD 2

/-- S, bit 3: defined in the ISA, never written or read as a flag (R18). -/
def signFlag (fl : Word) : Bool := fl.getLsbD 3

/-- HALT, bit 7, "finished" (R16, R19). -/
def haltFlag (fl : Word) : Bool := fl.getLsbD 7

/-- `Z <- z`: `fl <- (fl & 0xFFFE) | z` (R9). -/
def withZ (fl : Word) (z : Bool) : Word := (fl &&& 0xFFFE) ||| (if z then 1 else 0)

/-- `HALT <- 1`: `fl <- fl | 0x0080` (R9). -/
def withHalt (fl : Word) : Word := fl ||| 0x0080

/-- The Z that an arithmetic or bitwise result gives: 1 when the 16-bit result is 0, else 0 (R17, R82). -/
def zOfResult (r : Word) : Bool := r == 0

end Sys2Proof.Machine
end

