-- ==== Sys2Proof/Config.lean ====
section
/-! DEFINITION. What is fixed for the machine or supplied by its host: the address-space regions and the two origins
(R29, R118), the shape of an MMIO entry (R31), the host's side of a callback (R35, R36, R100), the open bounds
`MAX_MMIO` and `MAX_SYSCALLS` (R6), and the free value that stands for whatever the host answers (U9, U10). -/

namespace Sys2Proof

/-- The register file: 32 sixteen-bit registers in one bank (R10). -/
abbrev RegFile := Vector Word 32

/-- Raw memory as sorted (address, byte) pairs. What an unlisted address reads as is `Machine.Memory.unlisted`. -/
abbrev Memory := List Host.Cell

/-- The five regions the ISA divides the address space into (R29). The core enforces none of them. -/
inductive RegionKind where
  | code | stack | heap | device | system
  deriving DecidableEq, Repr

/-- One row of the region table of R29: first and last address. -/
structure Region where
  kind  : RegionKind
  first : Word
  last  : Word
  deriving DecidableEq, Repr

/-- The region table of R29, a convention between software and host. -/
def Config.regions : List Region :=
  [⟨.code, 0x0000, 0x3FFF⟩, ⟨.stack, 0x4000, 0x5FFF⟩, ⟨.heap, 0x6000, 0x9FFF⟩,
   ⟨.device, 0xA000, 0xDFFF⟩, ⟨.system, 0xE000, 0xFFFF⟩]

/-- `CODE_ORIGIN`, the instruction pointer after reset: the first address of the code region (R6, R118; the spec's
decision D25; log entry 2). -/
def Config.codeOrigin : Word := 0x0000

/-- `STACK_ORIGIN`, the stack pointer after reset: the first address of the stack region (R6, R118; the spec's
decision D25; log entry 2). -/
def Config.stackOrigin : Word := 0x4000

/-- `MEM_SIZE`: 65,536 bytes (R6, R23). -/
def Config.memSize : Nat := 65536

/-- One entry of the MMIO table: the half-open range from `startAddr` to `endAddr`, and which of its two callbacks are
present (R31). `endAddr` may be 0x10000, and an entry with `startAddr ≥ endAddr` covers nothing. -/
structure MmioEntry where
  startAddr : Nat
  endAddr   : Nat
  hasRead   : Bool
  hasWrite  : Bool
  deriving DecidableEq, Repr

/-- A transaction from the core to the host (R5): the two byte-wide device callbacks and the system call. -/
inductive HostCall where
  | devRead  (e : MmioEntry) (addr : Word)
  | devWrite (e : MmioEntry) (addr : Word) (byte : Byte)
  | syscall  (n : Word)
  deriving DecidableEq, Repr

/-- What a host writes into the core: any registers, any memory bytes and the instruction counter, the writes of each
list done in order (R49: "may freely read and write that CPU's state"; D28; log entry 6). The empty record writes
nothing. -/
structure HostWrites where
  regWrites : List (RegIdx × Word) := []
  memWrites : List (Word × Byte) := []
  setIcount : Option Nat := none
  deriving DecidableEq, Repr, Inhabited

/-- The host's answer to one callback: the byte a read callback returns (the other two kinds ignore it) and what the
callback wrote into the core before it returned. -/
structure HostAnswer where
  byte   : Byte := 0
  writes : HostWrites := {}
  deriving DecidableEq, Repr, Inhabited

/-- FREE VALUE. What the host answers to the newest call of `calls` (all the calls it has been made, oldest first) when
it sees the core with registers `x`, memory `mem` and counter `icount`. The spec puts it "under no law" (R35, U9, U10),
so nothing constrains it (log entry 4). -/
opaque Config.hostAnswer (calls : List HostCall) (x : RegFile) (mem : Memory) (icount : Nat) : HostAnswer

/-- `MAX_MMIO`, the bound on the number of MMIO entries; its value is not in the source (R6, N9; log entry 13). -/
opaque Config.maxMmio : Nat

/-- `MAX_SYSCALLS`, the bound on the size of the syscall table; its value is not in the source (R6, N9; log entry 13). -/
opaque Config.maxSyscalls : Nat

end Sys2Proof
end

