-- ==== Sys2Proof/Machine/State.lean ====
section
/-! DEFINITION. The state of the core (spec/10_state.md), the reasons a step can stop, and the state after reset.
Registers, memory and the instruction counter are the spec's whole state (R10, R23, R24, R26). The two tables stand
beside them as the fixed configuration of R25 (log entry 3), and the last two fields are the model's own: they hold the
host's side of the callbacks as plain data (log entries 4 and 5). -/

namespace Sys2Proof.Machine

/-- The core and what it is connected to, as plain data. -/
structure State where
  /-- The register file: 0 to 25 general, 26 to 28 reserved, 29 SP, 30 IP, 31 flags (R10 to R16). -/
  x           : RegFile
  /-- Raw memory, 64 KiB (R23), in canonical form (`Memory.wf`). -/
  mem         : Memory
  /-- The executed-instruction counter, unbounded (R24). -/
  icount      : Nat
  /-- `MMIO_TABLE`, in registration order (R31, R32). No step changes it (R25). -/
  mmioTable   : List MmioEntry
  /-- `NUM_SYSCALLS`, the registered count of the syscall table (R100). No step changes it (R25). -/
  numSyscalls : Nat
  /-- The model's own: the answers the host will give to the next callbacks, oldest first. When none is left the answer
  is the free value `Config.hostAnswer`. -/
  hostAnswers : List HostAnswer
  /-- The model's own: the transactions from core to host so far, oldest first (R5). -/
  hostCalls   : List HostCall
  deriving DecidableEq, Repr

/-- The two soft halts (R101). -/
inductive TrapKind where
  /-- IP is not a multiple of 4 (R102). -/
  | unalignedIP
  /-- The opcode byte is outside the valid range (R103). -/
  | invalidOpcode
  deriving DecidableEq, Repr

/-- Why a step has no next state: the two `Fatal` kinds and the three `Undefined` kinds of R7. -/
inductive Fault where
  /-- `Fatal(DivideByZero)`: raised by `div` and `mod` with a zero second source, with the instruction's address (R86,
  R87, R105). The spec aborts the run here, so stopping is exact (safe). -/
  | divideByZero (instrAddr : Word)
  /-- `Fatal(BadSyscall)`: raised by `sys` with register 0 at or above `NUM_SYSCALLS`, with that index and the
  instruction's address (R100, R106). The spec aborts the run here, so stopping is exact (safe). -/
  | badSyscall (index : Word) (instrAddr : Word)
  /-- `Undefined(RegIndexRange)`: raised at decode, and by any meaning given such a term, when a used register byte is
  above 31 (R21, R76). The spec asks for a fault that is never final (safe). -/
  | regIndexRange
  /-- `Undefined(ShiftRange)`: raised by `shl` and `shr` with an amount of 16 or more (R91, R92). The spec asks for a
  fault that is never final (safe). -/
  | shiftRange
  /-- `Undefined(AccessPastTop)`: raised by a 16-bit load or store at 0xFFFF (R43). The spec asks for a fault that is
  never final (safe). -/
  | accessPastTop
  deriving DecidableEq, Repr

/-- Why an instruction has no meaning. -/
inductive Refusal where
  /-- Raised by an arm of `exec` whose instruction has no meaning yet (safe). No arm of this model is one. -/
  | notModelled (mnemonic : String)
  deriving DecidableEq, Repr

/-- The outcome of a step or of an instruction. -/
abbrev Result := Host.Outcome State Fault Refusal

/-- The fresh state of spec/95_test_vectors.md: construction (R117) followed by reset (R118), so every register is zero
but SP, every byte of memory is zero (nothing listed), the counter is zero, and no MMIO entry and no syscall is
registered (log entries 2 and 3). -/
def State.reset : State where
  x := (Vector.replicate 32 (0 : Word)).set 29 Config.stackOrigin |>.set 30 Config.codeOrigin
  mem := []
  icount := 0
  mmioTable := []
  numSyscalls := 0
  hostAnswers := []
  hostCalls := []

end Sys2Proof.Machine
end

