-- ==== Sys2Proof/Machine/Ops.lean ====
section
/-! DEFINITION. The named operations every meaning goes through: raw memory (R23, R28), the register file's read and
write ports (R22), the fetch (R40), the callbacks into the host (R35, R36, R49, R100), the MMIO match and the data
accesses (R33, R37 to R39), the advance before the body (R72, R73) and the trap (R102, R103, R110). -/

namespace Sys2Proof.Machine

/-! ## Raw memory -/

/-- What an address that is not listed reads as: construction zeroes all memory (R117). -/
def Memory.unlisted : Byte := 0

/-- The byte at address `a`. -/
def Memory.read (m : Memory) (a : Nat) : Byte :=
  match m with
  | [] => Memory.unlisted
  | c :: rest => if c.1 = a then c.2 else Memory.read rest a

/-- `m` with nothing listed at `a`. -/
def Memory.erase (m : Memory) (a : Nat) : Memory := m.filter fun c => c.1 != a

/-- `m` with (`a`, `v`) listed before the first greater address. -/
def Memory.insert (m : Memory) (a : Nat) (v : Byte) : Memory :=
  match m with
  | [] => [(a, v)]
  | c :: rest => if a < c.1 then (a, v) :: c :: rest else c :: Memory.insert rest a v

/-- `mem[a] <- v`, keeping the canonical form: the value an unlisted address reads as is not listed. -/
def Memory.write (m : Memory) (a : Nat) (v : Byte) : Memory :=
  if v = Memory.unlisted then Memory.erase m a else Memory.insert (Memory.erase m a) a v

/-- Canonical form: addresses strictly rising, below 65,536, and no entry an unlisted address would read the same. -/
abbrev Memory.wf (m : Memory) : Prop :=
  m.Pairwise (fun c d => c.1 < d.1) ∧ ∀ c ∈ m, c.1 < 65536 ∧ c.2 ≠ Memory.unlisted

/-- The bytes of `bs` at `a`, `a + 1`, … in order (R120). -/
def Memory.writeBytes (m : Memory) (a : Nat) (bs : List Byte) : Memory :=
  match bs with
  | [] => m
  | b :: rest => Memory.writeBytes (Memory.write m a b) (a + 1) rest

/-! ## Ports -/

/-- `x[i]` (R9). -/
def State.reg (s : State) (i : RegIdx) : Word := s.x[i]

/-- `x[i] <- v` (R9). Register 30 changes where the next step fetches and register 31 the flags (R22). -/
def State.setReg (s : State) (i : RegIdx) (v : Word) : State := { s with x := s.x.set i v }

/-- `ip` (R9, R15). -/
def State.ip (s : State) : Word := s.reg ipIdx

/-- `sp` (R9, R14). -/
def State.sp (s : State) : Word := s.reg spIdx

/-- `fl` (R9, R16). -/
def State.fl (s : State) : Word := s.reg flIdx

/-- `mem[a]`, the raw byte, past any MMIO entry (R9). -/
def State.byte (s : State) (a : Word) : Byte := Memory.read s.mem a.toNat

/-- `mem[a] <- b`, raw (R9). -/
def State.setByte (s : State) (a : Word) (b : Byte) : State := { s with mem := Memory.write s.mem a.toNat b }

/-- `Z <- z` in the flags register (R9). -/
def State.setZ (s : State) (z : Bool) : State := s.setReg flIdx (withZ s.fl z)

/-! ## Fetch, advance, trap -/

/-- The alignment check of R72: IP is a multiple of 4. -/
def State.aligned (s : State) : Bool := decide (s.ip.toNat % 4 = 0)

/-- `FetchRead(ip)`: four raw bytes, no MMIO match, no side effect (R40). -/
def State.fetch (s : State) : InstrBytes :=
  ⟨s.byte s.ip, s.byte (s.ip + 1), s.byte (s.ip + 2), s.byte (s.ip + 3)⟩

/-- `s` with the bytes of `w` where a fetch at `a` reads them. -/
def State.placeInstr (s : State) (a : Word) (w : InstrBytes) : State :=
  (((s.setByte a w.b0).setByte (a + 1) w.b1).setByte (a + 2) w.b2).setByte (a + 3) w.b3

/-- `a` with its two low bits cleared: the aligned address at or below it. -/
def alignDown (a : Word) : Word := a &&& 0xFFFC

/-- Steps 4 and 5 of R72: IP past the instruction (mod 2^16, R73) and the instruction counted, before its body runs. -/
def State.dispatched (s : State) : State := { s.setReg ipIdx (s.ip + 4) with icount := s.icount + 1 }

/-- TAKING A TRAP: the machine's only exception entry. It saves nothing and goes nowhere; bit 7 of the flags becomes 1
whichever trap it is (R102, R103, R110). There is no return from it (R111). -/
def takeTrap (_kind : TrapKind) (s : State) : State := s.setReg flIdx (withHalt s.fl)

/-- `a_instr`: the address of the instruction whose body runs, IP being already past it (R86, R100). -/
def State.instrAddr (s : State) : Word := s.ip - 4

/-! ## The host's side of a callback -/

/-- Register writes done in order. -/
def applyRegWrites (x : RegFile) (ws : List (RegIdx × Word)) : RegFile :=
  match ws with
  | [] => x
  | w :: rest => applyRegWrites (x.set w.1 w.2) rest

/-- Raw memory writes done in order. -/
def applyMemWrites (m : Memory) (ws : List (Word × Byte)) : Memory :=
  match ws with
  | [] => m
  | w :: rest => applyMemWrites (Memory.write m w.1.toNat w.2) rest

/-- What the host writes into the core, inside a callback or between steps (R49). The tables are out of its reach
(R25). -/
def State.hostWrite (s : State) (w : HostWrites) : State :=
  { s with x := applyRegWrites s.x w.regWrites, mem := applyMemWrites s.mem w.memWrites,
           icount := w.setIcount.getD s.icount }

/-- The answer the host gives to call `c`: the next one listed, else the free value (log entry 4). -/
def State.hostAnswer (s : State) (c : HostCall) : HostAnswer :=
  match s.hostAnswers with
  | a :: _ => a
  | [] => Config.hostAnswer (s.hostCalls ++ [c]) s.x s.mem s.icount

/-- `s` with call `c` made and its answer used up. -/
def State.recordCall (s : State) (c : HostCall) : State :=
  { s with hostAnswers := s.hostAnswers.tail, hostCalls := s.hostCalls ++ [c] }

/-- One callback, run to completion: the byte it returns and the state it leaves (R4, R35, R36, R100). -/
def callHost (c : HostCall) (s : State) : Byte × State :=
  ((s.hostAnswer c).byte, (s.recordCall c).hostWrite (s.hostAnswer c).writes)

/-! ## Data accesses -/

/-- Address `a` is in entry `e` (R31). -/
def inEntry (e : MmioEntry) (a : Word) : Bool := decide (e.startAddr ≤ a.toNat ∧ a.toNat < e.endAddr)

/-- `Match(addr)`: the first registered entry that contains the address (R33). -/
def State.mmioMatch (s : State) (addr : Word) : Option MmioEntry := s.mmioTable.find? fun e => inEntry e addr

/-- `zext_16(b)` (R9). -/
def zext16 (b : Byte) : Word := joinBytes 0 b

/-- `DevRead(e, addr)` (R35). -/
def devRead (e : MmioEntry) (addr : Word) (s : State) : Byte × State := callHost (.devRead e addr) s

/-- `DevWrite(e, addr, b)` (R36). -/
def devWrite (e : MmioEntry) (addr : Word) (b : Byte) (s : State) : State := (callHost (.devWrite e addr b) s).2

/-- The 16-bit device read: two calls, lower address first, the first byte read the high one
(R38, `MMIO_LOAD16_ORDER`). -/
def devRead16 (e : MmioEntry) (addr : Word) (s : State) : Word × State :=
  let hi := devRead e addr s
  let lo := devRead e (addr + 1) hi.2
  (joinBytes hi.1 lo.1, lo.2)

/-- The 16-bit device write: two calls, the high byte to `addr` first, then the low byte to `addr + 1` (R39). -/
def devWrite16 (e : MmioEntry) (addr v : Word) (s : State) : State :=
  devWrite e (addr + 1) (lowByte v) (devWrite e addr (highByte v) s)

/-- The raw 16-bit read, little-endian (R38). -/
def State.rawWord (s : State) (addr : Word) : Word := joinBytes (s.byte (addr + 1)) (s.byte addr)

/-- The raw 16-bit write, little-endian: the low byte at `addr`, the high byte at `addr + 1` (R39). -/
def State.setRawWord (s : State) (addr v : Word) : State :=
  (s.setByte addr (lowByte v)).setByte (addr + 1) (highByte v)

/-- `MemRead(addr, 1)` (R37). No value when the matching entry has no read callback (R34). -/
def memRead8 (addr : Word) (s : State) : Option Word × State :=
  match s.mmioMatch addr with
  | none => (some (zext16 (s.byte addr)), s)
  | some e =>
    if e.hasRead then (some (zext16 (devRead e addr s).1), (devRead e addr s).2) else (none, s)

/-- `MemRead(addr, 2)` (R38). The top-of-memory test comes before the match (R43), and the match is made once, on the
base address (R33). -/
def memRead16 (addr : Word) (s : State) : Except Fault (Option Word × State) :=
  if addr = 0xFFFF then .error .accessPastTop
  else
    match s.mmioMatch addr with
    | none => .ok (some (s.rawWord addr), s)
    | some e =>
      if e.hasRead then .ok (some (devRead16 e addr s).1, (devRead16 e addr s).2) else .ok (none, s)

/-- `MemWrite(addr, 1, v)`: the low byte of `v` (R39). Nothing when the matching entry has no write callback (R34). -/
def memWrite8 (addr v : Word) (s : State) : State :=
  match s.mmioMatch addr with
  | none => s.setByte addr (lowByte v)
  | some e => if e.hasWrite then devWrite e addr (lowByte v) s else s

/-- `MemWrite(addr, 2, v)` (R39). The top-of-memory test comes before the match (R43). -/
def memWrite16 (addr v : Word) (s : State) : Except Fault State :=
  if addr = 0xFFFF then .error .accessPastTop
  else
    match s.mmioMatch addr with
    | none => .ok (s.setRawWord addr v)
    | some e => if e.hasWrite then .ok (devWrite16 e addr v s) else .ok s

end Sys2Proof.Machine
end

