-- ==== Sys2Proof/Machine/Operands.lean ====
section
/-! DEFINITION. Operand forms: the register operand with its range check (R21, R76), the result of a data access as an
outcome, and the shape the ten arithmetic and bitwise instructions share (R82). -/

namespace Sys2Proof.Machine

/-- A register operand: `k` of the register the byte names, `Undefined(RegIndexRange)` when it names none (R21). -/
def withReg (b : Byte) (k : RegIdx → Result) : Result :=
  if h : b.toNat < 32 then k ⟨b.toNat, h⟩ else .fault .regIndexRange

/-- The outcome of a computation that ends in a next state or a fault. -/
def resultOf (r : Except Fault State) : Result :=
  match r with
  | .ok s => .next s
  | .error f => .fault f

/-- What a load does with what it read: the register takes the value, or keeps its own on `NoValue` (R34, R80, R81). -/
def loadInto (d : RegIdx) (r : Option Word × State) : State :=
  match r.1 with
  | some v => r.2.setReg d v
  | none => r.2

/-- The end of an arithmetic or bitwise body: first the destination, then Z from the 16-bit result (R82; when the
destination is the flags register Z is written last, decision D19). -/
def State.putResult (s : State) (d : RegIdx) (r : Word) : State := (s.setReg d r).setZ (zOfResult r)

/-- The common body of R82: both sources are read before anything is written, and a precondition that raises leaves
everything unwritten. -/
def aluBody (op : Word → Word → Except Fault Word) (rd ra rb : Byte) (s : State) : Result :=
  withReg rd fun d => withReg ra fun a => withReg rb fun b =>
    resultOf ((op (s.reg a) (s.reg b)).map (s.putResult d))

end Sys2Proof.Machine
end

