-- ==== Sys2Proof/Machine/Arithmetic.lean ====
section
/-! DEFINITION. The ten arithmetic and bitwise instructions (spec/43_arithmetic.md), each `OP` of R83 to R92 over the
common body of R82. Every value is unsigned (decision D16). -/

namespace Sys2Proof.Machine

/-- The shift amount is the whole 16-bit value; 16 or more is `Undefined(ShiftRange)` (R91, R92). -/
def shiftBy (f : Word → Nat → Word) (a b : Word) : Except Fault Word :=
  if b.toNat < 16 then .ok (f a b.toNat) else .error .shiftRange

/-- A zero divisor is `Fatal(DivideByZero)` with the address of the instruction (R86, R87, R105). -/
def divideBy (f : Word → Word → Word) (instrAddr a b : Word) : Except Fault Word :=
  if b = 0 then .error (.divideByZero instrAddr) else .ok (f a b)

/-- `add`: `(a + b) mod 2^16` (R83). -/
def execAdd (rd ra rb : Byte) (s : State) : Result := aluBody (fun a b => .ok (a + b)) rd ra rb s

/-- `sub`: `(a - b) mod 2^16`, the first source the minuend (R84). -/
def execSub (rd ra rb : Byte) (s : State) : Result := aluBody (fun a b => .ok (a - b)) rd ra rb s

/-- `mul`: the low 16 bits of the product (R85). -/
def execMul (rd ra rb : Byte) (s : State) : Result := aluBody (fun a b => .ok (a * b)) rd ra rb s

/-- `div`: the unsigned quotient (R86). -/
def execDiv (rd ra rb : Byte) (s : State) : Result := aluBody (divideBy BitVec.udiv s.instrAddr) rd ra rb s

/-- `mod`: the unsigned remainder (R87). -/
def execMod (rd ra rb : Byte) (s : State) : Result := aluBody (divideBy BitVec.umod s.instrAddr) rd ra rb s

/-- `and` (R88). -/
def execAnd (rd ra rb : Byte) (s : State) : Result := aluBody (fun a b => .ok (a &&& b)) rd ra rb s

/-- `or` (R89). -/
def execOr (rd ra rb : Byte) (s : State) : Result := aluBody (fun a b => .ok (a ||| b)) rd ra rb s

/-- `xor` (R90). -/
def execXor (rd ra rb : Byte) (s : State) : Result := aluBody (fun a b => .ok (a ^^^ b)) rd ra rb s

/-- `shl`: zeros enter at the bottom (R91). -/
def execShl (rd ra rb : Byte) (s : State) : Result := aluBody (shiftBy BitVec.shiftLeft) rd ra rb s

/-- `shr`: logical, zeros enter at the top (R92). -/
def execShr (rd ra rb : Byte) (s : State) : Result := aluBody (shiftBy BitVec.ushiftRight) rd ra rb s

end Sys2Proof.Machine
end

