-- ==== Sys2Proof/Machine/Jumps.lean ====
section
/-! DEFINITION. The three jumps (spec/44_jumps.md). Targets are absolute, and no jump checks alignment: the next step's
fetch does. -/

namespace Sys2Proof.Machine

/-- `jmp imm` (R93). -/
def execJmp (imm : Word) (s : State) : Result := .next (s.setReg ipIdx imm)

/-- `jz imm`: taken when Z is 1, and then it clears Z (R94). -/
def execJz (imm : Word) (s : State) : Result :=
  if zFlag s.fl then .next ((s.setReg ipIdx imm).setZ false) else .next s

/-- `jr %ra` (R95). -/
def execJr (ra : Byte) (s : State) : Result := withReg ra fun a => .next (s.setReg ipIdx (s.reg a))

end Sys2Proof.Machine
end

