-- ==== Sys2Proof/Machine/Loads.lean ====
section
/-! DEFINITION. The two loads (spec/42_loads.md). The address register is read before any callback runs and the
destination is written after the last one returns. -/

namespace Sys2Proof.Machine

/-- `ldr %rd, %ra`, 16-bit (R80). -/
def execLdr (rd ra : Byte) (s : State) : Result :=
  withReg rd fun d => withReg ra fun a => resultOf ((memRead16 (s.reg a) s).map (loadInto d))

/-- `ldrb %rd, %ra`, 8-bit, zero-extended (R81). -/
def execLdrb (rd ra : Byte) (s : State) : Result :=
  withReg rd fun d => withReg ra fun a => .next (loadInto d (memRead8 (s.reg a) s))

end Sys2Proof.Machine
end

