-- ==== Sys2Proof/Machine/NopLdi.lean ====
section
/-! DEFINITION. No-op and load-immediate (spec/41_nop_ldi.md). -/

namespace Sys2Proof.Machine

/-- `nop` (R78). -/
def execNop (s : State) : Result := .next s

/-- `ldi %rd, imm` (R79). -/
def execLdi (rd : Byte) (imm : Word) (s : State) : Result := withReg rd fun d => .next (s.setReg d imm)

end Sys2Proof.Machine
end

