-- ==== Sys2Proof/Machine/Stores.lean ====
section
/-! DEFINITION. The four stores (spec/45_stores.md). The register in `B1` is the value's; address and value are read
before any callback runs, and no register is written. -/

namespace Sys2Proof.Machine

/-- `sti %rs, imm`, 16-bit (R96). -/
def execSti (rs : Byte) (imm : Word) (s : State) : Result :=
  withReg rs fun r => resultOf (memWrite16 imm (s.reg r) s)

/-- `stib %rs, imm`, the low byte (R97). -/
def execStib (rs : Byte) (imm : Word) (s : State) : Result :=
  withReg rs fun r => .next (memWrite8 imm (s.reg r) s)

/-- `str %rs, %ra`, 16-bit (R98). -/
def execStr (rs ra : Byte) (s : State) : Result :=
  withReg rs fun r => withReg ra fun a => resultOf (memWrite16 (s.reg a) (s.reg r) s)

/-- `strb %rs, %ra`, the low byte (R99). -/
def execStrb (rs ra : Byte) (s : State) : Result :=
  withReg rs fun r => withReg ra fun a => .next (memWrite8 (s.reg a) (s.reg r) s)

end Sys2Proof.Machine
end

