-- ==== Sys2Proof/Machine/Syscall.lean ====
section
/-! DEFINITION. The system call (spec/46_sys.md). -/

namespace Sys2Proof.Machine

/-- `sys`: the handler numbered by register 0 runs to completion; an index at or above `NUM_SYSCALLS`, compared
unsigned on all 16 bits, is `Fatal(BadSyscall)` and no handler runs. The core itself writes nothing (R100, R106). -/
def execSys (s : State) : Result :=
  if (s.reg r0).toNat < s.numSyscalls then .next (callHost (.syscall (s.reg r0)) s).2
  else .fault (.badSyscall (s.reg r0) s.instrAddr)

end Sys2Proof.Machine
end

