-- ==== Sys2Proof/Machine/Dispatch.lean ====
section
/-! DEFINITION. One arm per instruction (R57): its meaning, run after the advance of R72. -/

namespace Sys2Proof.Machine

def exec (i : Instr) (s : State) : Host.Outcome State Fault Refusal :=
  match i with
  | .nop => Sys2Proof.Machine.execNop s
  | .ldi rd imm => Sys2Proof.Machine.execLdi rd imm s
  | .ldr rd ra => Sys2Proof.Machine.execLdr rd ra s
  | .ldrb rd ra => Sys2Proof.Machine.execLdrb rd ra s
  | .add rd ra rb => Sys2Proof.Machine.execAdd rd ra rb s
  | .sub rd ra rb => Sys2Proof.Machine.execSub rd ra rb s
  | .mul rd ra rb => Sys2Proof.Machine.execMul rd ra rb s
  | .div rd ra rb => Sys2Proof.Machine.execDiv rd ra rb s
  | .mod rd ra rb => Sys2Proof.Machine.execMod rd ra rb s
  | .and rd ra rb => Sys2Proof.Machine.execAnd rd ra rb s
  | .or rd ra rb => Sys2Proof.Machine.execOr rd ra rb s
  | .xor rd ra rb => Sys2Proof.Machine.execXor rd ra rb s
  | .shl rd ra rb => Sys2Proof.Machine.execShl rd ra rb s
  | .shr rd ra rb => Sys2Proof.Machine.execShr rd ra rb s
  | .jmp imm => Sys2Proof.Machine.execJmp imm s
  | .jz imm => Sys2Proof.Machine.execJz imm s
  | .jr ra => Sys2Proof.Machine.execJr ra s
  | .sti rs imm => Sys2Proof.Machine.execSti rs imm s
  | .stib rs imm => Sys2Proof.Machine.execStib rs imm s
  | .str rs ra => Sys2Proof.Machine.execStr rs ra s
  | .strb rs ra => Sys2Proof.Machine.execStrb rs ra s
  | .sys => Sys2Proof.Machine.execSys s

end Sys2Proof.Machine
end

