-- ==== Sys2Proof/Machine/Step.lean ====
section
/-! DEFINITION. `step()`, exactly one fetch-decode-execute cycle (spec/40_fetch_dispatch.md), and how an instruction is
placed where the next one is fetched. -/

namespace Sys2Proof.Machine

/-- R72: the alignment check, the fetch, the opcode range check, the advance and the count, the register range check,
the body. A trap is a step whose only effect is the halt flag (R7); `step` does not test that flag (R77). -/
def step (s : State) : Host.Outcome State Fault Refusal :=
  if s.aligned then
    match decode s.fetch with
    | .invalid => .next (takeTrap .invalidOpcode s)
    | .badReg => .fault .regIndexRange
    | .instr i => exec i s.dispatched
  else .next (takeTrap .unalignedIP s)

/-- `s` with the instruction whose bits are `w` where `step` fetches next. IP is aligned down, since an unaligned IP
fetches nothing (R72); an aligned IP stays as it is (log entry 15). -/
def State.withFetchWord (s : State) (nbits w : Nat) : State :=
  (s.setReg ipIdx (alignDown s.ip)).placeInstr (alignDown s.ip) (bytesOfTableWord nbits w)

end Sys2Proof.Machine
end

