-- ==== Sys2Proof/Machine/HostInterface.lean ====
section
/-! DEFINITION. The host-to-core transactions of R5 and the boot sequence and run loop around `step`: `construct` (R117),
MMIO registration (R32), `reset` (R118, R119), `load` (R120), boot (R121) and `run` (R77). None of them is an effect of
an instruction. -/

namespace Sys2Proof.Machine

/-- The host's own configuration errors: fatal before or between steps, never seen by a running program. -/
inductive HostError where
  /-- More than `MAX_MMIO` entries (R32). -/
  | tooManyMmioEntries
  /-- More than `MAX_SYSCALLS` handlers (R6). -/
  | tooManySyscalls
  /-- An image of more than 65,536 bytes (R71, R120). -/
  | imageTooLarge
  /-- An image that would run past the end of memory (R120, decision D37). -/
  | imagePastTop
  deriving DecidableEq, Repr

/-- The core as construction leaves it: registers, memory and counter zero, the syscall table supplied, no MMIO entry
yet (R117). Construction does not reset. -/
def constructed (numSyscalls : Nat) : State where
  x := Vector.replicate 32 0
  mem := []
  icount := 0
  mmioTable := []
  numSyscalls := numSyscalls
  hostAnswers := []
  hostCalls := []

/-- `construct` with the bound on the syscall table (R6, R117). -/
def construct (numSyscalls : Nat) : Except HostError State :=
  if numSyscalls ≤ Config.maxSyscalls then .ok (constructed numSyscalls) else .error .tooManySyscalls

/-- The host registers one more MMIO entry, after those already there (R32). -/
def registerMmio (s : State) (e : MmioEntry) : Except HostError State :=
  if s.mmioTable.length < Config.maxMmio then .ok { s with mmioTable := s.mmioTable ++ [e] }
  else .error .tooManyMmioEntries

/-- Registration of several entries in order. -/
def registerAll (s : State) (es : List MmioEntry) : Except HostError State :=
  match es with
  | [] => .ok s
  | e :: rest => (registerMmio s e).bind fun t => registerAll t rest

/-- `reset()`: IP, SP, flags and counter, and nothing else (R118, R119). -/
def hostReset (s : State) : State :=
  { ((s.setReg ipIdx Config.codeOrigin).setReg spIdx Config.stackOrigin).setReg flIdx 0 with icount := 0 }

/-- `load(bytes, at)`: the image copied into raw memory, contents unchecked (R120). -/
def loadImage (s : State) (bytes : List Byte) (at_ : Word) : Except HostError State :=
  if bytes.length > Config.memSize then .error .imageTooLarge
  else if at_.toNat + bytes.length > Config.memSize then .error .imagePastTop
  else .ok { s with mem := Memory.writeBytes s.mem at_.toNat bytes }

/-- The boot sequence: construct, register every entry, load at the code origin, reset (R121). -/
def boot (numSyscalls : Nat) (entries : List MmioEntry) (image : List Byte) : Except HostError State :=
  (construct numSyscalls).bind fun s => (registerAll s entries).bind fun t =>
    (loadImage t image Config.codeOrigin).map hostReset

/-- How a run of the host's loop ends (R77). -/
inductive RunEnd where
  /-- The loop saw HALT. -/
  | halted (s : State)
  /-- A step faulted: the run is aborted, or the model says nothing more. -/
  | stopped (f : Fault)
  /-- A step was refused. -/
  | refused (r : Refusal)
  /-- The host stopped stepping: its budget of steps is used up. That is a pause, not an end. -/
  | paused (s : State)
  deriving DecidableEq, Repr

/-- `run()` for at most `budget` steps: HALT is tested before each step (R77). -/
def run (budget : Nat) (s : State) : RunEnd :=
  if haltFlag s.fl then .halted s
  else
    match budget with
    | 0 => .paused s
    | k + 1 =>
      match step s with
      | .next t => run k t
      | .fault f => .stopped f
      | .refused r => .refused r

end Sys2Proof.Machine
end

