-- ==== Sys2Proof/Safety.lean ====
section
/-! DEFINITION. The terms claims about runs use: the invariant of the state, and what a safe step and a safe run are. -/

namespace Sys2Proof.Machine

/-- The invariant every step keeps: memory is in canonical form. -/
abbrev Inv (s : State) : Prop := Memory.wf s.mem

/-- The step has a next state (an instruction or a trap): it is neither fatal nor undefined (R7). -/
def SafeStep (s : State) : Prop := ∃ t, step s = .next t

/-- Each of the next `k` steps is safe. -/
def SafeFor (k : Nat) (s : State) : Prop :=
  match k with
  | 0 => True
  | k + 1 => ∃ t, step s = .next t ∧ SafeFor k t

/-- No callback was made between `s` and `t`: every callback is recorded, so the record is as it was. -/
def NoHostCall (s t : State) : Prop := t.hostCalls = s.hostCalls

end Sys2Proof.Machine
end

