-- ==== Sys2Proof/Certificates/Slice0/Obligations.lean ====
section
/-! DEFINITION. The statements for the provers. Register operands range over all 32 registers (`regByte d` is the byte
that names register `d`), so no form is shut out; a byte that names no register has its own statements. `exec` runs an
instruction's body, IP being already past it (R73); statements about `step` add the fetch and the advance. A docstring
names the spec's decision D<n> wherever a clause rests on one; an opcode number is always D2, its scheme D4 (log
entry 1). -/

namespace Sys2Proof.Spec

open Sys2Proof.Machine

/-! ## The terms the statements share -/

/-- From `s` to `t` only the listed registers and the bytes at the listed addresses may differ (and the counter, which
each statement speaks of itself). -/
def SameExcept (regs : List RegIdx) (addrs : List Word) (s t : State) : Prop :=
  (∀ i, i ∉ regs → t.reg i = s.reg i) ∧ (∀ a, a ∉ addrs → t.byte a = s.byte a) ∧
  t.mmioTable = s.mmioTable ∧ t.numSyscalls = s.numSyscalls ∧
  t.hostAnswers = s.hostAnswers ∧ t.hostCalls = s.hostCalls

/-- The frame of an instruction's body: as `SameExcept`, and the counter is not written either. -/
def Frame (regs : List RegIdx) (addrs : List Word) (s t : State) : Prop :=
  SameExcept regs addrs s t ∧ t.icount = s.icount

/-- The address is in the entry (R31). -/
def Covers (e : MmioEntry) (addr : Word) : Prop := e.startAddr ≤ addr.toNat ∧ addr.toNat < e.endAddr

/-- No entry contains the address (R33). -/
def NoMatch (s : State) (addr : Word) : Prop := ∀ e ∈ s.mmioTable, ¬ Covers e addr

/-- `e` is the first registered entry that contains the address (R33). -/
def FirstMatch (s : State) (addr : Word) (e : MmioEntry) : Prop :=
  ∃ before after, s.mmioTable = before ++ e :: after ∧ Covers e addr ∧ ∀ e' ∈ before, ¬ Covers e' addr

/-- An opcode byte whose scheme is `none`: the other bytes are ignored (R51, R58). -/
def NoneRow (k : Byte) (i : Instr) : Prop := ∀ b1 b2 b3, decode ⟨k, b1, b2, b3⟩ = .instr i

/-- An opcode byte of scheme `regs` (R52). -/
def RegsRow (k : Byte) (mk : Byte → Byte → Byte → Instr) : Prop :=
  ∀ b1 b2 b3, decode ⟨k, b1, b2, b3⟩ =
    if b1.toNat ≤ 31 ∧ b2.toNat ≤ 31 ∧ b3.toNat ≤ 31 then .instr (mk b1 b2 b3) else .badReg

/-- An opcode byte of scheme `reg-imm`: the immediate is `B2:B3`, high byte first (R53, R59). -/
def RegImmRow (k : Byte) (mk : Byte → Word → Instr) : Prop :=
  ∀ b1 b2 b3, decode ⟨k, b1, b2, b3⟩ =
    if b1.toNat ≤ 31 then .instr (mk b1 (BitVec.ofNat 16 (b2.toNat * 256 + b3.toNat))) else .badReg

/-- An opcode byte of scheme `reg-reg` (R54). -/
def RegRegRow (k : Byte) (mk : Byte → Byte → Instr) : Prop :=
  ∀ b1 b2 b3, decode ⟨k, b1, b2, b3⟩ =
    if b1.toNat ≤ 31 ∧ b2.toNat ≤ 31 then .instr (mk b1 b2) else .badReg

/-- An opcode byte of scheme `reg` (R55). -/
def RegRow (k : Byte) (mk : Byte → Instr) : Prop :=
  ∀ b1 b2 b3, decode ⟨k, b1, b2, b3⟩ = if b1.toNat ≤ 31 then .instr (mk b1) else .badReg

/-- An opcode byte of scheme `imm`: the immediate is `B2:B3`, high byte first (R56, R59). -/
def ImmRow (k : Byte) (mk : Word → Instr) : Prop :=
  ∀ b1 b2 b3, decode ⟨k, b1, b2, b3⟩ = .instr (mk (BitVec.ofNat 16 (b2.toNat * 256 + b3.toNat)))

/-- The register bytes an instruction with opcode `k` uses (R51 to R57). -/
def usedRegBytes (w : InstrBytes) : List Byte :=
  if w.b0.toNat ∈ [0x01, 0x10, 0x11, 0x12] then [w.b1]
  else if w.b0.toNat ∈ [0x02, 0x03, 0x13, 0x14] then [w.b1, w.b2]
  else if 0x04 ≤ w.b0.toNat ∧ w.b0.toNat ≤ 0x0D then [w.b1, w.b2, w.b3]
  else []

/-- What an arithmetic or bitwise instruction with 16-bit result `r` and a destination other than the flags leaves
(R82): the destination is `r`, Z says whether `r` is 0, every other flag bit and everything else is as it was. -/
def AluEffect (s t : State) (d : RegIdx) (r : Nat) : Prop :=
  (t.reg d).toNat = r ∧ (t.fl.getLsbD 0 = true ↔ r = 0) ∧ (∀ k, 1 ≤ k → t.fl.getLsbD k = s.fl.getLsbD k) ∧
  Frame [d, flIdx] [] s t

/-- The rule of one of the six operations that have no precondition: its row, its range check, its effect (R82). -/
def TotalAluRule (k : Byte) (mk : Byte → Byte → Byte → Instr) (f : Nat → Nat → Nat) : Prop :=
  RegsRow k mk ∧
  (∀ rd ra rb s, ¬ (rd.toNat ≤ 31 ∧ ra.toNat ≤ 31 ∧ rb.toNat ≤ 31) → exec (mk rd ra rb) s = .fault .regIndexRange) ∧
  (∀ (d a b : RegIdx) (s : State), d ≠ flIdx →
    ∃ t, exec (mk (regByte d) (regByte a) (regByte b)) s = .next t ∧
      AluEffect s t d (f (s.reg a).toNat (s.reg b).toNat))

/-- The rule of an operation with a precondition: its row, its effect where the precondition holds of the second
source, and its fault where it does not (R86, R87, R91, R92). -/
def PartialAluRule (k : Byte) (mk : Byte → Byte → Byte → Instr) (pre : Nat → Prop) (fault : State → Fault)
    (f : Nat → Nat → Nat) : Prop :=
  RegsRow k mk ∧
  (∀ (d a b : RegIdx) (s : State),
    (pre (s.reg b).toNat → d ≠ flIdx →
      ∃ t, exec (mk (regByte d) (regByte a) (regByte b)) s = .next t ∧
        AluEffect s t d (f (s.reg a).toNat (s.reg b).toNat)) ∧
    (¬ pre (s.reg b).toNat → exec (mk (regByte d) (regByte a) (regByte b)) s = .fault (fault s)))

/-- The ten operations of R83 to R92 with their results, none where the precondition fails. -/
def aluOps : List ((Byte → Byte → Byte → Instr) × (Nat → Nat → Option Nat)) :=
  [(.add, fun a b => some ((a + b) % 65536)),
   (.sub, fun a b => some (if b ≤ a then a - b else a + 65536 - b)),
   (.mul, fun a b => some (a * b % 65536)),
   (.div, fun a b => if b = 0 then none else some (a / b)),
   (.mod, fun a b => if b = 0 then none else some (a % b)),
   (.and, fun a b => some (a &&& b)),
   (.or, fun a b => some (a ||| b)),
   (.xor, fun a b => some (a ^^^ b)),
   (.shl, fun a b => if b < 16 then some (a * 2 ^ b % 65536) else none),
   (.shr, fun a b => if b < 16 then some (a / 2 ^ b) else none)]

/-- A device byte write seen from the core: the callback made, its effects in the state after (R36). -/
def afterWrite (e : MmioEntry) (addr : Word) (b : Byte) (s : State) : State :=
  (callHost (.devWrite e addr b) s).2

/-- What a 16-bit store of `v` at `addr` does, whichever instruction makes it (R39, R96, R98). -/
def WordStoreEffect (i : Instr) (addr v : Word) (s : State) : Prop :=
  (addr = 0xFFFF → exec i s = .fault .accessPastTop) ∧
  (addr ≠ 0xFFFF → NoMatch s addr →
    ∃ t, exec i s = .next t ∧ (t.byte addr).toNat = v.toNat % 256 ∧ (t.byte (addr + 1)).toNat = v.toNat / 256 ∧
      Frame [] [addr, addr + 1] s t) ∧
  (∀ e, addr ≠ 0xFFFF → FirstMatch s addr e → e.hasWrite = true →
    exec i s = .next (afterWrite e (addr + 1) (BitVec.ofNat 8 (v.toNat % 256))
      (afterWrite e addr (BitVec.ofNat 8 (v.toNat / 256)) s))) ∧
  (∀ e, addr ≠ 0xFFFF → FirstMatch s addr e → e.hasWrite = false → exec i s = .next s)

/-- What an 8-bit store of `v` at `addr` does, whichever instruction makes it (R39, R97, R99). -/
def ByteStoreEffect (i : Instr) (addr v : Word) (s : State) : Prop :=
  (NoMatch s addr →
    ∃ t, exec i s = .next t ∧ (t.byte addr).toNat = v.toNat % 256 ∧ Frame [] [addr] s t) ∧
  (∀ e, FirstMatch s addr e → e.hasWrite = true →
    exec i s = .next (afterWrite e addr (BitVec.ofNat 8 (v.toNat % 256)) s)) ∧
  (∀ e, FirstMatch s addr e → e.hasWrite = false → exec i s = .next s)

/-- The bytes an instruction stores to when its access goes to raw memory: its target address and, for the 16-bit
forms, the following byte (R30, R96 to R99). -/
def storedBytes (s : State) : Instr → List Word
  | .sti _ imm => [imm, imm + 1]
  | .stib _ imm => [imm]
  | .str _ ra => if h : ra.toNat < 32 then [s.reg ⟨ra.toNat, h⟩, s.reg ⟨ra.toNat, h⟩ + 1] else []
  | .strb _ ra => if h : ra.toNat < 32 then [s.reg ⟨ra.toNat, h⟩] else []
  | .nop | .ldi _ _ | .ldr _ _ | .ldrb _ _ | .add _ _ _ | .sub _ _ _ | .mul _ _ _ | .div _ _ _ | .mod _ _ _
  | .and _ _ _ | .or _ _ _ | .xor _ _ _ | .shl _ _ _ | .shr _ _ _ | .jmp _ | .jz _ | .jr _ | .sys => []

/-- The bytes a raw 16-bit store of `v` leaves, the lower address first (R41). -/
def wordBytes (v : Word) : List Byte := [BitVec.ofNat 8 (v.toNat % 256), BitVec.ofNat 8 (v.toNat / 256)]

/-- The byte at `a` once `bytes` stand at `addr`, `addr + 1`, …, and every other byte is as in `s`. -/
def overlaid (s : State) (addr : Word) (bytes : List Byte) (a : Word) : Byte :=
  (bytes[(a - addr).toNat]?).getD (s.byte a)

/-- What the store `i` of `bytes` at `addr` does to the four bytes that the next fetch reads (R39, R40, R48): each device
call it makes carries one byte and uses up one answer. -/
def NextFetchAfterStore (i : Instr) (addr : Word) (bytes : List Byte) (s : State) : Prop :=
  (NoMatch s addr → ∃ t, exec i s = .next t ∧
    t.fetch = ⟨overlaid s addr bytes s.ip, overlaid s addr bytes (s.ip + 1), overlaid s addr bytes (s.ip + 2),
      overlaid s addr bytes (s.ip + 3)⟩) ∧
  (∀ e, FirstMatch s addr e →
    (e.hasWrite = true → bytes.length ≤ s.hostAnswers.length ∧
      ∀ a ∈ s.hostAnswers.take bytes.length, a.writes = {}) →
    ∃ t, exec i s = .next t ∧ t.fetch = s.fetch)

/-- `i`, run in `s`, is a load or store whose first matching entry lacks the callback it needs (R34). The 16-bit forms
at 0xFFFF never reach the match (R43). -/
def Silent (s : State) (i : Instr) : Prop :=
  (∃ d a e, (i = .ldrb (regByte d) (regByte a) ∨ (i = .ldr (regByte d) (regByte a) ∧ s.reg a ≠ 0xFFFF)) ∧
    FirstMatch s (s.reg a) e ∧ e.hasRead = false) ∨
  (∃ r a e, (i = .strb (regByte r) (regByte a) ∨ (i = .str (regByte r) (regByte a) ∧ s.reg a ≠ 0xFFFF)) ∧
    FirstMatch s (s.reg a) e ∧ e.hasWrite = false) ∨
  (∃ r imm e, (i = .stib (regByte r) imm ∨ (i = .sti (regByte r) imm ∧ imm ≠ 0xFFFF)) ∧
    FirstMatch s imm e ∧ e.hasWrite = false)

/-- A call the two registered tables allow in `s` (R4, R34, R100). -/
def CallAllowed (s : State) : HostCall → Prop
  | .devRead e _ => e ∈ s.mmioTable ∧ e.hasRead = true
  | .devWrite e _ _ => e ∈ s.mmioTable ∧ e.hasWrite = true
  | .syscall n => n.toNat < s.numSyscalls

/-- Where a step faults, and with what (R101, R105 to R107, R109): IP is aligned, the four bytes decode as said, and
the instruction's own precondition fails in the state its body sees. -/
def FaultCause (s : State) : Fault → Prop
  | .regIndexRange => s.aligned = true ∧ decode s.fetch = .badReg
  | .divideByZero at_ => s.aligned = true ∧ at_ = s.ip ∧ ∃ rd ra b,
      (decode s.fetch = .instr (.div rd ra (regByte b)) ∨ decode s.fetch = .instr (.mod rd ra (regByte b))) ∧
      s.dispatched.reg b = 0
  | .badSyscall n at_ => s.aligned = true ∧ at_ = s.ip ∧ decode s.fetch = .instr .sys ∧
      n = s.dispatched.reg r0 ∧ s.numSyscalls ≤ n.toNat
  | .shiftRange => s.aligned = true ∧ ∃ rd ra b,
      (decode s.fetch = .instr (.shl rd ra (regByte b)) ∨ decode s.fetch = .instr (.shr rd ra (regByte b))) ∧
      16 ≤ (s.dispatched.reg b).toNat
  | .accessPastTop => s.aligned = true ∧
      ((∃ r, decode s.fetch = .instr (.sti r 0xFFFF)) ∨
       ∃ r a, (decode s.fetch = .instr (.ldr r (regByte a)) ∨ decode s.fetch = .instr (.str r (regByte a))) ∧
         s.dispatched.reg a = 0xFFFF)

end Sys2Proof.Spec

open Sys2Proof Sys2Proof.Machine Sys2Proof.Spec

/-! ## Encoding -/

/-- Decoding the encoding of any well-formed instruction gives it back, every operand at every value (S1, R62). -/
def Obligations.DecodeOfEncodeIsTheInstruction : Prop :=
  ∀ i : Instr, i.wellFormed = true → decode (encode i) = .instr i

/-- `Decode` as R62 and the opcode map of R57 give it, for all four bytes: each of the 22 rows with its scheme, its
register range check and its unused bytes ignored, and every other opcode byte invalid. The numbers and byte positions
are the spec's decisions D1, D2, D4, D5. -/
def Obligations.DecodeFollowsTheOpcodeMap : Prop :=
  (NoneRow 0x00 .nop ∧ RegImmRow 0x01 .ldi ∧ RegRegRow 0x02 .ldr ∧ RegRegRow 0x03 .ldrb ∧
   RegsRow 0x04 .add ∧ RegsRow 0x05 .sub ∧ RegsRow 0x06 .mul ∧ RegsRow 0x07 .div ∧ RegsRow 0x08 .mod ∧
   RegsRow 0x09 .and ∧ RegsRow 0x0A .or ∧ RegsRow 0x0B .xor ∧ RegsRow 0x0C .shl ∧ RegsRow 0x0D .shr ∧
   ImmRow 0x0E .jmp ∧ ImmRow 0x0F .jz ∧ RegRow 0x10 .jr ∧ RegImmRow 0x11 .sti ∧ RegImmRow 0x12 .stib ∧
   RegRegRow 0x13 .str ∧ RegRegRow 0x14 .strb ∧ NoneRow 0x15 .sys) ∧
  ∀ w : InstrBytes, 0x16 ≤ w.b0.toNat → decode w = .invalid

/-- Re-encoding what four bytes decode to gives the same bytes with 0x00 in every byte the scheme does not use (R58,
R62, S1; the treatment of unused bytes is the spec's decision D5). -/
def Obligations.ReencodingClearsUnusedBytes : Prop :=
  ∀ (w : InstrBytes) (i : Instr), decode w = .instr i → encode i = clearUnused (schemeOf i.op) w

/-- Eight words written out from the encodings of spec/95_test_vectors.md decode to the instructions it names. -/
def Obligations.SampleWordsDecode : Prop :=
  decodeTableWord 32 0x01001234 = some (.ldi 0 0x1234) ∧ decodeTableWord 32 0x02040300 = some (.ldr 4 3) ∧
  decodeTableWord 32 0x05020001 = some (.sub 2 0 1) ∧ decodeTableWord 32 0x0F000020 = some (.jz 0x0020) ∧
  decodeTableWord 32 0x10020000 = some (.jr 2) ∧ decodeTableWord 32 0x1204A002 = some (.stib 4 0xA002) ∧
  decodeTableWord 32 0x13040600 = some (.str 4 6) ∧ decodeTableWord 32 0x15AABBCC = some .sys

/-! ## The step -/

/-- R72 whole: the alignment check, the fetch from raw memory (decision D15), the opcode range check (its boundary 0x15 is
D2), the advance by 4 (its wrap is D31) and the count before the body, the register range check (D6), and then the body
of the decoded instruction. That the alignment is tested before the fetch is D32. -/
def Obligations.StepIsOneFetchDecodeExecuteCycle : Prop :=
  ∀ s : State,
    (s.ip.toNat % 4 ≠ 0 → step s = .next (s.setReg flIdx (s.fl ||| 0x0080))) ∧
    (s.ip.toNat % 4 = 0 →
      let w : InstrBytes := ⟨s.byte s.ip, s.byte (s.ip + 1), s.byte (s.ip + 2), s.byte (s.ip + 3)⟩
      (0x15 < w.b0.toNat → step s = .next (s.setReg flIdx (s.fl ||| 0x0080))) ∧
      (decode w = .badReg → step s = .fault .regIndexRange) ∧
      (∀ i, decode w = .instr i → step s = exec i { s.setReg ipIdx (s.ip + 4) with icount := s.icount + 1 }))

/-- R102: whatever lies at an unaligned IP, the step sets bit 7 of the flags and changes nothing else, the counter and
IP among what stays. -/
def Obligations.UnalignedPointerTraps : Prop :=
  ∀ s : State, s.ip.toNat % 4 ≠ 0 →
    ∃ t, step s = .next t ∧ t.fl.toNat = s.fl.toNat ||| 0x80 ∧ Frame [flIdx] [] s t

/-- R103 and R60: at an aligned IP an opcode byte of 0x16 or more sets bit 7 of the flags and changes nothing else, so
IP still points at it. The boundary 0x16 is the spec's decision D2. -/
def Obligations.InvalidOpcodeTraps : Prop :=
  ∀ s : State, s.ip.toNat % 4 = 0 → 0x16 ≤ (s.byte s.ip).toNat →
    ∃ t, step s = .next t ∧ t.fl.toNat = s.fl.toNat ||| 0x80 ∧ Frame [flIdx] [] s t

/-- R111: after a trap the state is stable, stepping again gives the same state; and the trapped state has HALT set, so
the host's loop stops there (R77). -/
def Obligations.TrappedCoreIsStable : Prop :=
  ∀ s t : State, (s.aligned = false ∨ decode s.fetch = .invalid) → step s = .next t →
    step t = .next t ∧ haltFlag t.fl = true ∧ ∀ k, run k t = .halted t

/-- R21 and R76 (decision D6): at an aligned IP with an opcode in range, a used register byte above 31 ends the step in
`Undefined(RegIndexRange)`; and no meaning does anything with a term that holds one. -/
def Obligations.RegisterByteOver31Faults : Prop :=
  (∀ s : State, s.aligned = true → (s.byte s.ip).toNat ≤ 0x15 → (∃ b ∈ usedRegBytes s.fetch, 31 < b.toNat) →
    step s = .fault .regIndexRange) ∧
  (∀ (i : Instr) (s : State), i.wellFormed = false → exec i s = .fault .regIndexRange)

/-- Where a step has no next state, exactly: it is never refused, and it faults with `f` if and only if one of the five
causes of R101 and R107 holds, in the priority of R109. The address a fatal carries is the instruction's own (decision
D22); the three undefined kinds are decisions D6, D14 and D17. -/
def Obligations.StepFaultsExactlyWhereTheSpecSays : Prop :=
  ∀ s : State, (∀ r, step s ≠ .refused r) ∧ ∀ f, step s = .fault f ↔ FaultCause s f

/-- R73: an instruction that is no jump, does not name register 30 as its destination and makes no callback falls
through to its own address plus 4, modulo 2^16 (the wrap is the spec's decision D31). -/
def Obligations.FallThroughAdvancesByFour : Prop :=
  ∀ (s t : State) (i : Instr), s.aligned = true → decode s.fetch = .instr i → step s = .next t → NoHostCall s t →
    i.op.isJump = false → i.destByte ≠ some (regByte ipIdx) → t.ip.toNat = (s.ip.toNat + 4) % 65536

/-- R24 and R75: a step that makes no callback counts exactly when it dispatches an instruction (a callback may write
the counter, decision D28). -/
def Obligations.CounterCountsDispatches : Prop :=
  ∀ s t : State, step s = .next t → NoHostCall s t →
    t.icount = if s.ip.toNat % 4 = 0 ∧ (s.byte s.ip).toNat ≤ 0x15 then s.icount + 1 else s.icount

/-! ## The whole machine -/

/-- Every step, whatever the host answers, keeps memory in canonical form (log entry 7). -/
def Obligations.StepKeepsMemoryCanonical : Prop :=
  ∀ s t : State, Inv s → step s = .next t → Inv t

/-- The state after reset meets the invariant. -/
def Obligations.ResetMeetsTheInvariant : Prop := Inv State.reset

/-- Two canonical memories that read the same at every address are the same data (log entry 7). -/
def Obligations.CanonicalMemoriesWithEqualBytesAreEqual : Prop :=
  ∀ m n : Memory, Memory.wf m → Memory.wf n → (∀ a, Memory.read m a = Memory.read n a) → m = n

/-- R25: no step changes either table, whatever the host answers. That a callback cannot is the model's reading (log
entry 6). -/
def Obligations.StepKeepsTheHostTables : Prop :=
  ∀ s t : State, step s = .next t → t.mmioTable = s.mmioTable ∧ t.numSyscalls = s.numSyscalls

/-- R4 and R30: the core calls the host only from loads, stores and `sys`, at most twice in a step, and each call is one
the tables allow: to a registered entry that has the callback, or to a registered handler. The record of calls is the
model's own (log entry 5). -/
def Obligations.HostCallsGoThroughTheTables : Prop :=
  ∀ s t : State, step s = .next t → ∃ cs, t.hostCalls = s.hostCalls ++ cs ∧ cs.length ≤ 2 ∧
    (∀ c ∈ cs, CallAllowed s c) ∧ (cs ≠ [] → ∃ i, decode s.fetch = .instr i ∧ i.op.reachesHost = true)

/-- R24 ("No instruction reads it; only the host can") and R4: a step that makes no callback goes the same way whatever
the counter and the host's pending answers are. The list of answers is the model's own (log entry 4). -/
def Obligations.CounterAndHostAnswersAreInvisibleToPrograms : Prop :=
  ∀ (s t : State) (n : Nat) (as : List HostAnswer), step s = .next t → NoHostCall s t →
    step { s with icount := n, hostAnswers := as } =
      .next { t with icount := n + (t.icount - s.icount), hostAnswers := as }

/-- R11, R13, R14: a register below 30, SP and the reserved ones among them, changes in a step without callbacks only if
the instruction names it as its destination. That the reserved ones are plain storage is the spec's decision D21. -/
def Obligations.RegistersChangeOnlyByName : Prop :=
  ∀ (s t : State) (j : RegIdx), j.val < 30 → step s = .next t → NoHostCall s t → t.reg j ≠ s.reg j →
    ∃ i, decode s.fetch = .instr i ∧ i.destByte = some (regByte j)

/-- R30: a byte of memory changes in a step without callbacks only if the instruction is a store and the byte is one of
those it stores to. -/
def Obligations.MemoryChangesOnlyByStores : Prop :=
  ∀ (s t : State) (a : Word), step s = .next t → NoHostCall s t → t.byte a ≠ s.byte a →
    ∃ i, decode s.fetch = .instr i ∧ a ∈ storedBytes s.dispatched i

/-! ## The flags -/

/-- R17: each of the ten recomputes Z from its 16-bit result, whatever its destination; `jz` leaves it clear; every other
instruction leaves it as it was, unless register 31 is the destination or a callback ran. That Z is written after a
destination 31 is the spec's decision D19 (R22, R82 law 6; log entry 14); the results of `div`, `mod`, `shl` and `shr`
are its D16 and D17 (log entry 12). -/
def Obligations.OnlyAluAndJzWriteZ : Prop :=
  (∀ p ∈ aluOps, ∀ (d a b : RegIdx) (s : State) (r : Nat), p.2 (s.reg a).toNat (s.reg b).toNat = some r →
    ∃ t, exec (p.1 (regByte d) (regByte a) (regByte b)) s = .next t ∧ (zFlag t.fl = true ↔ r = 0)) ∧
  ∀ (i : Instr) (s t : State), exec i s = .next t → NoHostCall s t → i.destByte ≠ some (regByte flIdx) →
    (i.op = .jz → zFlag t.fl = false) ∧ (i.op.isAlu = false → i.op ≠ .jz → zFlag t.fl = zFlag s.fl)

/-- R18, R20 and law 4 of R82 (decisions D18, D19): no instruction writes C, O, S, HALT or an unassigned bit, unless
register 31 is its destination or a callback ran. -/
def Obligations.NoInstructionWritesOtherFlagBits : Prop :=
  ∀ (i : Instr) (s t : State) (k : Nat), exec i s = .next t → NoHostCall s t →
    i.destByte ≠ some (regByte flIdx) → 1 ≤ k → t.fl.getLsbD k = s.fl.getLsbD k

/-- R19: in a step without callbacks HALT becomes 1 only by one of the two traps or by an instruction that names
register 31, and becomes 0 only by such an instruction. -/
def Obligations.HaltChangesOnlyByTrapsAndRegister31 : Prop :=
  ∀ s t : State, step s = .next t → NoHostCall s t → haltFlag t.fl ≠ haltFlag s.fl →
    (haltFlag t.fl = true ∧ (s.aligned = false ∨ decode s.fetch = .invalid)) ∨
    ∃ i, decode s.fetch = .instr i ∧ i.destByte = some (regByte flIdx)

/-! ## The instructions -/

/-- R78: `nop` (opcode 0x00, decision D2) changes nothing, so its step only advances IP and counts. -/
def Obligations.NopOnlyAdvances : Prop :=
  NoneRow 0x00 .nop ∧ ∀ s : State, exec .nop s = .next s ∧
    (s.aligned = true → (s.byte s.ip) = 0x00 →
      ∃ t, step s = .next t ∧ t.ip = s.ip + 4 ∧ t.icount = s.icount + 1 ∧ SameExcept [ipIdx] [] s t)

/-- R79: `ldi` writes the immediate to any register and nothing else; naming 30 it is a jump, naming 31 it replaces all
flag bits; Z is not recomputed. The opcode number is decision D2. -/
def Obligations.LdiWritesTheImmediate : Prop :=
  RegImmRow 0x01 .ldi ∧
  (∀ rd imm s, 31 < rd.toNat → exec (.ldi rd imm) s = .fault .regIndexRange) ∧
  ∀ (d : RegIdx) (imm : Word) (s : State),
    ∃ t, exec (.ldi (regByte d) imm) s = .next t ∧ t.reg d = imm ∧ Frame [d] [] s t

/-- R80: `ldr` at 0xFFFF is `Undefined(AccessPastTop)` (decision D14); else it loads little-endian from raw memory when no
entry matches (D11), with two calls, lower address and high byte first, from a device (D12, D13), and leaves the register
on a missing callback. The destination is written after the callbacks return. Opcode and addressing: D2, D4, D8. -/
def Obligations.LdrLoadsAWord : Prop :=
  RegRegRow 0x02 .ldr ∧
  (∀ rd ra s, ¬ (rd.toNat ≤ 31 ∧ ra.toNat ≤ 31) → exec (.ldr rd ra) s = .fault .regIndexRange) ∧
  ∀ (d a : RegIdx) (s : State), let addr := s.reg a; let i := Instr.ldr (regByte d) (regByte a)
    (addr = 0xFFFF → exec i s = .fault .accessPastTop) ∧
    (addr ≠ 0xFFFF → NoMatch s addr →
      ∃ t, exec i s = .next t ∧
        (t.reg d).toNat = (s.byte (addr + 1)).toNat * 256 + (s.byte addr).toNat ∧ Frame [d] [] s t) ∧
    (∀ e, addr ≠ 0xFFFF → FirstMatch s addr e → e.hasRead = true →
      let hi := callHost (.devRead e addr) s; let lo := callHost (.devRead e (addr + 1)) hi.2
      ∃ t, exec i s = .next t ∧ (t.reg d).toNat = hi.1.toNat * 256 + lo.1.toNat ∧ Frame [d] [] lo.2 t) ∧
    (∀ e, addr ≠ 0xFFFF → FirstMatch s addr e → e.hasRead = false → exec i s = .next s)

/-- R81: `ldrb` writes the whole register with the byte, zero-extended (decision D10), from raw memory or from one device
call, and leaves the register on a missing callback. An address of 0xFFFF is ordinary. Opcode and addressing: D2, D4,
D8. -/
def Obligations.LdrbLoadsAByte : Prop :=
  RegRegRow 0x03 .ldrb ∧
  (∀ rd ra s, ¬ (rd.toNat ≤ 31 ∧ ra.toNat ≤ 31) → exec (.ldrb rd ra) s = .fault .regIndexRange) ∧
  ∀ (d a : RegIdx) (s : State), let addr := s.reg a; let i := Instr.ldrb (regByte d) (regByte a)
    (NoMatch s addr →
      ∃ t, exec i s = .next t ∧ (t.reg d).toNat = (s.byte addr).toNat ∧ Frame [d] [] s t) ∧
    (∀ e, FirstMatch s addr e → e.hasRead = true →
      let r := callHost (.devRead e addr) s
      ∃ t, exec i s = .next t ∧ (t.reg d).toNat = r.1.toNat ∧ Frame [d] [] r.2 t) ∧
    (∀ e, FirstMatch s addr e → e.hasRead = false → exec i s = .next s)

/-- R83, R84, R85: sum, difference and product modulo 2^16, Z from the 16-bit result, every other flag bit kept. The
destination here is any register but the flags; `AluIntoTheFlagsRegister` covers that one. Opcodes: decision D2. -/
def Obligations.AddSubMulTruncateTo16Bits : Prop :=
  TotalAluRule 0x04 .add (fun a b => (a + b) % 65536) ∧
  TotalAluRule 0x05 .sub (fun a b => if b ≤ a then a - b else a + 65536 - b) ∧
  TotalAluRule 0x06 .mul (fun a b => a * b % 65536)

/-- R88, R89, R90: the three bitwise operations over 16 bits, with Z. Destination and opcodes as in
`AddSubMulTruncateTo16Bits`. -/
def Obligations.BitwiseOperationsSetZ : Prop :=
  TotalAluRule 0x09 .and (fun a b => a &&& b) ∧ TotalAluRule 0x0A .or (fun a b => a ||| b) ∧
  TotalAluRule 0x0B .xor (fun a b => a ^^^ b)

/-- R86, R87, R105: unsigned quotient and remainder (decision D16); a zero divisor is fatal with the address of the
instruction itself (decision D22). Destination and opcodes as in `AddSubMulTruncateTo16Bits`. -/
def Obligations.DivModAreUnsignedAndFatalOnZero : Prop :=
  PartialAluRule 0x07 .div (fun b => b ≠ 0) (fun s => .divideByZero (s.ip - 4)) (fun a b => a / b) ∧
  PartialAluRule 0x08 .mod (fun b => b ≠ 0) (fun s => .divideByZero (s.ip - 4)) (fun a b => a - a / b * b)

/-- R91, R92: shifts by 0 to 15, the right one logical (decisions D16, D17); the whole 16-bit amount counts, and 16 or
more is `Undefined(ShiftRange)`. Destination and opcodes as in `AddSubMulTruncateTo16Bits`. -/
def Obligations.ShiftsByUpTo15 : Prop :=
  PartialAluRule 0x0C .shl (fun b => b < 16) (fun _ => .shiftRange) (fun a b => a * 2 ^ b % 65536) ∧
  PartialAluRule 0x0D .shr (fun b => b < 16) (fun _ => .shiftRange) (fun a b => a / 2 ^ b)

/-- Law 6 of R82 (the spec's decision D19, its least supported one): any of the ten with destination 31 writes the
result to the flags and then Z over bit 0. -/
def Obligations.AluIntoTheFlagsRegister : Prop :=
  ∀ p ∈ aluOps, ∀ (a b : RegIdx) (s : State) (r : Nat), p.2 (s.reg a).toNat (s.reg b).toNat = some r →
    ∃ t, exec (p.1 (regByte flIdx) (regByte a) (regByte b)) s = .next t ∧
      t.fl.toNat = (if r = 0 then 1 else r / 2 * 2) ∧ Frame [flIdx] [] s t

/-- R93: `jmp` writes its absolute target to IP, aligned or not, and nothing else. Opcode and immediate bytes: decisions
D2, D5. -/
def Obligations.JmpWritesTheTarget : Prop :=
  ImmRow 0x0E .jmp ∧ ∀ (imm : Word) (s : State),
    ∃ t, exec (.jmp imm) s = .next t ∧ t.ip = imm ∧ Frame [ipIdx] [] s t

/-- R94: `jz` jumps and clears Z when Z is 1, does nothing when it is 0, and touches no other flag bit, so Z is 0 after
it either way (decision D33). Opcode and immediate bytes: decisions D2, D5. -/
def Obligations.JzJumpsOnZAndClearsIt : Prop :=
  ImmRow 0x0F .jz ∧ ∀ (imm : Word) (s : State),
    (s.fl.getLsbD 0 = true → ∃ t, exec (.jz imm) s = .next t ∧ t.ip = imm ∧ t.fl.toNat = s.fl.toNat - 1 ∧
      Frame [ipIdx, flIdx] [] s t) ∧
    (s.fl.getLsbD 0 = false → exec (.jz imm) s = .next s)

/-- R95 (opcode and byte position: decisions D2, D5): `jr` writes the register's value to IP, aligned or not, and
nothing else; naming register 30 it falls through. -/
def Obligations.JrWritesTheRegister : Prop :=
  RegRow 0x10 .jr ∧ (∀ ra s, 31 < ra.toNat → exec (.jr ra) s = .fault .regIndexRange) ∧
  ∀ (a : RegIdx) (s : State), ∃ t, exec (.jr (regByte a)) s = .next t ∧ t.ip = s.reg a ∧ Frame [ipIdx] [] s t

/-- R96 and R98: the two 16-bit stores, at the immediate and at the address register's value. Raw memory little-endian,
a device the high byte first at the lower address, nothing on a missing callback, `Undefined(AccessPastTop)` at 0xFFFF
(decision D14); no register and no flag is written. Opcodes and operand roles: D2, D4, D9; single match: D13. -/
def Obligations.WordStoresKeepTheByteOrderAsymmetry : Prop :=
  (RegImmRow 0x11 .sti ∧ RegRegRow 0x13 .str) ∧
  (∀ rs imm s, 31 < rs.toNat → exec (.sti rs imm) s = .fault .regIndexRange) ∧
  (∀ rs ra s, ¬ (rs.toNat ≤ 31 ∧ ra.toNat ≤ 31) → exec (.str rs ra) s = .fault .regIndexRange) ∧
  (∀ (r : RegIdx) (imm : Word) (s : State), WordStoreEffect (.sti (regByte r) imm) imm (s.reg r) s) ∧
  (∀ (r a : RegIdx) (s : State), WordStoreEffect (.str (regByte r) (regByte a)) (s.reg a) (s.reg r) s)

/-- R97 and R99: the two 8-bit stores write the low byte (decision D10) and touch no neighbour; 0xFFFF is ordinary.
Opcodes and operand roles: D2, D4, D9. -/
def Obligations.ByteStoresWriteTheLowByte : Prop :=
  (RegImmRow 0x12 .stib ∧ RegRegRow 0x14 .strb) ∧
  (∀ rs imm s, 31 < rs.toNat → exec (.stib rs imm) s = .fault .regIndexRange) ∧
  (∀ rs ra s, ¬ (rs.toNat ≤ 31 ∧ ra.toNat ≤ 31) → exec (.strb rs ra) s = .fault .regIndexRange) ∧
  (∀ (r : RegIdx) (imm : Word) (s : State), ByteStoreEffect (.stib (regByte r) imm) imm (s.reg r) s) ∧
  (∀ (r a : RegIdx) (s : State), ByteStoreEffect (.strb (regByte r) (regByte a)) (s.reg a) (s.reg r) s)

/-- R100 (decisions D2, D27, D28; log entries 4 to 6): with register 0 a registered number, `sys` calls that handler
once, with IP past the `sys`, and what the state becomes is the handler's answer alone: each listed register and byte
holds the last value listed for it, every other one and the counter, unless the answer sets it, are as they were, and
the core itself writes nothing. -/
def Obligations.SysCallsTheHandler : Prop :=
  NoneRow 0x15 .sys ∧ ∀ s : State, (s.reg r0).toNat < s.numSyscalls →
    ∃ t, exec .sys s = .next t ∧ t.hostCalls = s.hostCalls ++ [.syscall (s.reg r0)] ∧
      t.hostAnswers = s.hostAnswers.tail ∧ t.mmioTable = s.mmioTable ∧ t.numSyscalls = s.numSyscalls ∧
      (let w := (s.hostAnswer (.syscall (s.reg r0))).writes
       (w = {} → SameExcept [] [] { s with hostAnswers := t.hostAnswers, hostCalls := t.hostCalls } t ∧
         t.icount = s.icount) ∧
       t.icount = w.setIcount.getD s.icount ∧
       (∀ j v before later, w.regWrites = before ++ (j, v) :: later → (∀ u, (j, u) ∉ later) → t.reg j = v) ∧
       (∀ a b before later, w.memWrites = before ++ (a, b) :: later → (∀ c, (a, c) ∉ later) → t.byte a = b) ∧
       (∀ j, (∀ v, (j, v) ∉ w.regWrites) → t.reg j = s.reg j) ∧
       (∀ a, (∀ b, (a, b) ∉ w.memWrites) → t.byte a = s.byte a))

/-- R106: a step at a `sys` with register 0 at or above `NUM_SYSCALLS` is `Fatal(BadSyscall)` with that index and the
address of the `sys`; no handler runs. -/
def Obligations.SysWithABadIndexIsFatal : Prop :=
  ∀ s : State, s.aligned = true → decode s.fetch = .instr .sys → s.numSyscalls ≤ (s.reg r0).toNat →
    step s = .fault (.badSyscall (s.reg r0) s.ip)

/-! ## Memory and devices -/

/-- R33 (the single match on the base address is decision D13): the match is the first registered entry that contains
the address, and there is none exactly when no entry contains it. -/
def Obligations.MmioMatchIsTheFirstRegistered : Prop :=
  ∀ (s : State) (addr : Word),
    (∀ e, s.mmioMatch addr = some e ↔ FirstMatch s addr e) ∧ (s.mmioMatch addr = none ↔ NoMatch s addr)

/-- R34: a load or store whose matching entry lacks the callback is silent: its step has a next state in which IP has
advanced, the instruction is counted, and nothing else has changed, memory and the destination among it. -/
def Obligations.MissingCallbackIsSilent : Prop :=
  ∀ (s : State) (i : Instr), s.aligned = true → decode s.fetch = .instr i → Silent s.dispatched i →
    ∃ t, step s = .next t ∧ t.ip = s.ip + 4 ∧ t.icount = s.icount + 1 ∧ SameExcept [ipIdx] [] s t

/-- R41, R45 and decision D11: a raw 16-bit store followed by a load of the same address gives the stored value, and
8-bit loads of its two bytes give its low and then its high byte. -/
def Obligations.StoreThenLoadGivesTheValue : Prop :=
  ∀ (r a d : RegIdx) (s : State), s.reg a ≠ 0xFFFF → NoMatch s (s.reg a) →
    ∃ t, exec (.str (regByte r) (regByte a)) s = .next t ∧
      (∃ u, exec (.ldr (regByte d) (regByte a)) t = .next u ∧ u.reg d = s.reg r) ∧
      (∃ u, exec (.ldrb (regByte d) (regByte a)) t = .next u ∧ (u.reg d).toNat = (s.reg r).toNat % 256) ∧
      (∀ c, s.reg c = s.reg a + 1 → NoMatch s (s.reg c) →
        ∃ u, exec (.ldrb (regByte d) (regByte c)) t = .next u ∧ (u.reg d).toNat = (s.reg r).toNat / 256)

/-- R48: from any state, each of the four stores at any address leaves the next fetch reading the stored bytes where they
fall on the four bytes at IP, and the old ones elsewhere, when no entry contains the address; a store that an entry takes
changes no fetch, when the entry has no write callback or the callbacks it makes write nothing into the core. IP is the
next instruction's here, so this is the very next step's fetch. A 16-bit store at 0xFFFF stops (R43). Fetch past MMIO is
the spec's decision D15, the operand roles D9, the low byte D10, the one match on the base address D13; the list of
answers is the model's own (log entry 4). -/
def Obligations.StoresAreSeenByTheNextFetch : Prop :=
  (∀ (r : RegIdx) (addr : Word) (s : State), addr ≠ 0xFFFF →
    NextFetchAfterStore (.sti (regByte r) addr) addr (wordBytes (s.reg r)) s) ∧
  (∀ (r : RegIdx) (addr : Word) (s : State),
    NextFetchAfterStore (.stib (regByte r) addr) addr [BitVec.ofNat 8 ((s.reg r).toNat % 256)] s) ∧
  (∀ (r a : RegIdx) (s : State), s.reg a ≠ 0xFFFF →
    NextFetchAfterStore (.str (regByte r) (regByte a)) (s.reg a) (wordBytes (s.reg r)) s) ∧
  (∀ (r a : RegIdx) (s : State),
    NextFetchAfterStore (.strb (regByte r) (regByte a)) (s.reg a) [BitVec.ofNat 8 ((s.reg r).toNat % 256)] s)

/-! ## The host's side -/

/-- R117 (the counter's value is decision D38): construction zeroes every register, SP among them, all memory and the
counter; resetting a constructed core without syscalls gives the model's reset state (log entry 2). -/
def Obligations.ConstructionZeroesAndResetFollows : Prop :=
  (∀ n, (∀ i, (constructed n).reg i = 0) ∧ (∀ a, (constructed n).byte a = 0) ∧ (constructed n).icount = 0 ∧
    (constructed n).numSyscalls = n ∧ (constructed n).mmioTable = []) ∧
  hostReset (constructed 0) = State.reset

/-- R118 and R119 (origins and what is preserved: decision D25): regardless of prior execution reset leaves IP, flags and
counter zero and SP at 0x4000, and everything else as it was. -/
def Obligations.ResetWritesFourItems : Prop :=
  ∀ s : State, (hostReset s).ip = 0x0000 ∧ (hostReset s).sp = 0x4000 ∧ (hostReset s).fl = 0x0000 ∧
    (hostReset s).icount = 0 ∧ SameExcept [ipIdx, spIdx, flIdx] [] s (hostReset s)

/-- R120 (the bound on `at + n` is decision D37): `load` puts byte `k` of the image at address `at + k` and changes
nothing else; an image too long, or running past the top, is a load error. -/
def Obligations.LoadCopiesTheImage : Prop :=
  ∀ (s : State) (bytes : List Byte) (at_ : Word),
    (65536 < bytes.length → loadImage s bytes at_ = .error .imageTooLarge) ∧
    (bytes.length ≤ 65536 → 65536 < at_.toNat + bytes.length → loadImage s bytes at_ = .error .imagePastTop) ∧
    (at_.toNat + bytes.length ≤ 65536 → ∃ t, loadImage s bytes at_ = .ok t ∧ t.icount = s.icount ∧
      (∀ a : Word, t.byte a =
        if at_.toNat ≤ a.toNat then (bytes[a.toNat - at_.toNat]?).getD (s.byte a) else s.byte a) ∧
      (∀ i, t.reg i = s.reg i) ∧ t.mmioTable = s.mmioTable ∧ t.numSyscalls = s.numSyscalls ∧
      t.hostAnswers = s.hostAnswers ∧ t.hostCalls = s.hostCalls)

/-- R121: the launch premises. A booted core has registers 0 to 28 zero, SP = 0x4000, IP, flags and counter zero, memory
equal to the image from 0x0000 and zero elsewhere, the tables as given, and no callback made. Origins: decision D25; the counter at construction: D38. -/
def Obligations.BootGivesTheLaunchPremises : Prop :=
  ∀ (n : Nat) (entries : List MmioEntry) (image : List Byte) (s : State), boot n entries image = .ok s →
    (∀ i, s.reg i = if i = spIdx then 0x4000 else 0) ∧ s.icount = 0 ∧
    (∀ a : Word, s.byte a = (image[a.toNat]?).getD 0) ∧ s.mmioTable = entries ∧ s.numSyscalls = n ∧
    s.hostCalls = [] ∧ image.length ≤ 65536

/-- R77 (where the loop tests the flag: decision D23): the loop stops at once on a halted core, a run that ends halted
ends in a state with HALT set and ends there for every larger budget, and a trap ends it. The budget is the
model's (log entry 16). -/
def Obligations.RunStopsAtTheHaltFlag : Prop :=
  (∀ k s, haltFlag s.fl = true → run k s = .halted s) ∧
  (∀ k s t, run k s = .halted t → haltFlag t.fl = true ∧ ∀ j, run (k + j) s = .halted t) ∧
  (∀ k s, (s.aligned = false ∨ decode s.fetch = .invalid) → ∃ t, run (k + 1) s = .halted t ∧ t.icount = s.icount)

/-- R122: a program ends itself with `ldi %fl, 0x80` (bytes 01 1F 00 80): one step, HALT set and every other flag bit
clear, IP past it. The bytes are the spec's decision D2. -/
def Obligations.LdiToFlagsEndsTheProgram : Prop :=
  ∀ (k : Nat) (s : State), haltFlag s.fl = false → s.aligned = true → s.fetch = ⟨0x01, 0x1F, 0x00, 0x80⟩ →
    ∃ t, run (k + 1) s = .halted t ∧ t.fl = 0x0080 ∧ t.ip = s.ip + 4 ∧ t.icount = s.icount + 1 ∧
      SameExcept [ipIdx, flIdx] [] s t
end

