-- ==== Sys2Proof/Laws/Decode.lean ====
section
/-! SUPPORT. The byte-order helpers and the opcode map's lookup, once each. -/

namespace Sys2Proof

theorem toNat_joinBytes (hi lo : Byte) : (joinBytes hi lo).toNat = hi.toNat * 256 + lo.toNat := by
  rw [joinBytes, BitVec.toNat_append, Nat.shiftLeft_eq, Nat.mul_comm hi.toNat,
    ← Nat.two_pow_add_eq_or_of_lt lo.isLt]

theorem toNat_highByte (v : Word) : (highByte v).toNat = v.toNat / 256 := by
  have := v.isLt
  simp [highByte, BitVec.extractLsb'_toNat, Nat.shiftRight_eq_div_pow]
  omega

theorem toNat_lowByte (v : Word) : (lowByte v).toNat = v.toNat % 256 := by
  simp [lowByte, BitVec.extractLsb'_toNat]

@[simp] theorem joinBytes_highByte_lowByte (v : Word) : joinBytes (highByte v) (lowByte v) = v := by
  apply BitVec.eq_of_toNat_eq
  rw [toNat_joinBytes, toNat_highByte, toNat_lowByte]
  omega

@[simp] theorem highByte_joinBytes (hi lo : Byte) : highByte (joinBytes hi lo) = hi := by
  apply BitVec.eq_of_toNat_eq
  have := lo.isLt
  rw [toNat_highByte, toNat_joinBytes]
  omega

@[simp] theorem lowByte_joinBytes (hi lo : Byte) : lowByte (joinBytes hi lo) = lo := by
  apply BitVec.eq_of_toNat_eq
  have := lo.isLt
  rw [toNat_lowByte, toNat_joinBytes]
  omega

/-- Looking an operation's opcode up gives the operation. -/
@[simp] theorem opOfByte_opcodeOf (o : Op) : opOfByte (opcodeOf o) = some o := by
  cases o <;> decide

/-- The other direction: what the lookup finds has that opcode. -/
theorem opcodeOf_of_opOfByte {b : Byte} {o : Op} (h : opOfByte b = some o) : opcodeOf o = b := by
  simpa using List.find?_some h

@[simp] theorem toNat_regByte (i : RegIdx) : (regByte i).toNat = i.val := by
  have := i.isLt
  simp [regByte]
  omega

theorem regByte_injective {i j : RegIdx} : regByte i = regByte j ↔ i = j := by
  rw [← BitVec.toNat_inj, toNat_regByte, toNat_regByte, Fin.ext_iff]

/-- Every byte in range names a register. -/
theorem exists_regByte {b : Byte} (h : b.toNat < 32) : ∃ i, b = regByte i :=
  ⟨⟨b.toNat, h⟩, BitVec.eq_of_toNat_eq (by simp)⟩

@[simp] theorem regByteOk_eq_true (b : Byte) : regByteOk b = true ↔ b.toNat < 32 := by simp [regByteOk]

@[simp] theorem regByteOk_regByte (i : RegIdx) : regByteOk (regByte i) = true := by simp

/-- What decodes to an instruction is the operation its opcode selects, over its own fields, and well-formed. -/
theorem decode_eq_instr {w : InstrBytes} {i : Instr} (h : decode w = .instr i) :
    ∃ o, opOfByte w.b0 = some o ∧ i = assembleFields o w ∧ i.wellFormed = true := by
  unfold decode at h
  split at h
  · cases h
  · next o ho =>
    split at h
    · next hw => cases h; exact ⟨o, ho, rfl, hw⟩
    · cases h

@[simp] theorem op_assembleFields (o : Op) (w : InstrBytes) : (assembleFields o w).op = o := by cases o <;> rfl

end Sys2Proof
end

