-- ==== Sys2Proof/Laws/State.lean ====
section
/-! SUPPORT. What each update of the state does to each field and to each port, so that no later proof unfolds a record
update. The normal form of a register read is `s.reg i`, of a memory read `s.byte a`. -/

namespace Sys2Proof.Machine

/-! ## Fields -/

section Fields

variable (s : State) (i : RegIdx) (v : Word) (a : Word) (b : Byte) (c : HostCall) (w : HostWrites) (k : TrapKind)

@[simp] theorem setReg_mem : (s.setReg i v).mem = s.mem := rfl
@[simp] theorem setReg_icount : (s.setReg i v).icount = s.icount := rfl
@[simp] theorem setReg_mmioTable : (s.setReg i v).mmioTable = s.mmioTable := rfl
@[simp] theorem setReg_numSyscalls : (s.setReg i v).numSyscalls = s.numSyscalls := rfl
@[simp] theorem setReg_hostAnswers : (s.setReg i v).hostAnswers = s.hostAnswers := rfl
@[simp] theorem setReg_hostCalls : (s.setReg i v).hostCalls = s.hostCalls := rfl

@[simp] theorem setByte_x : (s.setByte a b).x = s.x := rfl
@[simp] theorem setByte_mem : (s.setByte a b).mem = Memory.write s.mem a.toNat b := rfl
@[simp] theorem setByte_icount : (s.setByte a b).icount = s.icount := rfl
@[simp] theorem setByte_mmioTable : (s.setByte a b).mmioTable = s.mmioTable := rfl
@[simp] theorem setByte_numSyscalls : (s.setByte a b).numSyscalls = s.numSyscalls := rfl
@[simp] theorem setByte_hostAnswers : (s.setByte a b).hostAnswers = s.hostAnswers := rfl
@[simp] theorem setByte_hostCalls : (s.setByte a b).hostCalls = s.hostCalls := rfl

@[simp] theorem dispatched_mem : s.dispatched.mem = s.mem := rfl
@[simp] theorem dispatched_icount : s.dispatched.icount = s.icount + 1 := rfl
@[simp] theorem dispatched_mmioTable : s.dispatched.mmioTable = s.mmioTable := rfl
@[simp] theorem dispatched_numSyscalls : s.dispatched.numSyscalls = s.numSyscalls := rfl
@[simp] theorem dispatched_hostAnswers : s.dispatched.hostAnswers = s.hostAnswers := rfl
@[simp] theorem dispatched_hostCalls : s.dispatched.hostCalls = s.hostCalls := rfl

@[simp] theorem recordCall_x : (s.recordCall c).x = s.x := rfl
@[simp] theorem recordCall_mem : (s.recordCall c).mem = s.mem := rfl
@[simp] theorem recordCall_icount : (s.recordCall c).icount = s.icount := rfl
@[simp] theorem recordCall_mmioTable : (s.recordCall c).mmioTable = s.mmioTable := rfl
@[simp] theorem recordCall_numSyscalls : (s.recordCall c).numSyscalls = s.numSyscalls := rfl
@[simp] theorem recordCall_hostAnswers : (s.recordCall c).hostAnswers = s.hostAnswers.tail := rfl
@[simp] theorem recordCall_hostCalls : (s.recordCall c).hostCalls = s.hostCalls ++ [c] := rfl

@[simp] theorem hostWrite_x : (s.hostWrite w).x = applyRegWrites s.x w.regWrites := rfl
@[simp] theorem hostWrite_mem : (s.hostWrite w).mem = applyMemWrites s.mem w.memWrites := rfl
@[simp] theorem hostWrite_icount : (s.hostWrite w).icount = w.setIcount.getD s.icount := rfl
@[simp] theorem hostWrite_mmioTable : (s.hostWrite w).mmioTable = s.mmioTable := rfl
@[simp] theorem hostWrite_numSyscalls : (s.hostWrite w).numSyscalls = s.numSyscalls := rfl
@[simp] theorem hostWrite_hostAnswers : (s.hostWrite w).hostAnswers = s.hostAnswers := rfl
@[simp] theorem hostWrite_hostCalls : (s.hostWrite w).hostCalls = s.hostCalls := rfl

/-- A host that writes nothing leaves the state as it is. -/
@[simp] theorem hostWrite_nothing : s.hostWrite {} = s := rfl

@[simp] theorem takeTrap_mem : (takeTrap k s).mem = s.mem := rfl
@[simp] theorem takeTrap_icount : (takeTrap k s).icount = s.icount := rfl
@[simp] theorem takeTrap_mmioTable : (takeTrap k s).mmioTable = s.mmioTable := rfl
@[simp] theorem takeTrap_numSyscalls : (takeTrap k s).numSyscalls = s.numSyscalls := rfl
@[simp] theorem takeTrap_hostAnswers : (takeTrap k s).hostAnswers = s.hostAnswers := rfl
@[simp] theorem takeTrap_hostCalls : (takeTrap k s).hostCalls = s.hostCalls := rfl

end Fields

/-! ## The register ports -/

@[simp] theorem ipIdx_ne_flIdx : ipIdx ≠ flIdx := by decide
@[simp] theorem flIdx_ne_ipIdx : flIdx ≠ ipIdx := by decide
@[simp] theorem spIdx_ne_flIdx : spIdx ≠ flIdx := by decide
@[simp] theorem flIdx_ne_spIdx : flIdx ≠ spIdx := by decide
@[simp] theorem spIdx_ne_ipIdx : spIdx ≠ ipIdx := by decide
@[simp] theorem ipIdx_ne_spIdx : ipIdx ≠ spIdx := by decide

section Ports

variable (s : State) (i j : RegIdx) (v u : Word)

@[simp] theorem reg_setReg : (s.setReg i v).reg j = if i = j then v else s.reg j := by
  simp [State.reg, State.setReg, Vector.getElem_set, Fin.ext_iff]

@[simp] theorem fl_setReg : (s.setReg i v).fl = if i = flIdx then v else s.fl := reg_setReg s i flIdx v

@[simp] theorem ip_setReg : (s.setReg i v).ip = if i = ipIdx then v else s.ip := reg_setReg s i ipIdx v

@[simp] theorem sp_setReg : (s.setReg i v).sp = if i = spIdx then v else s.sp := reg_setReg s i spIdx v

/-- Writing back the value a register holds changes nothing. -/
@[simp] theorem setReg_reg : s.setReg i (s.reg i) = s := by
  simp [State.setReg, State.reg]

@[simp] theorem setReg_setReg : (s.setReg i v).setReg i u = s.setReg i u := by
  simp [State.setReg]

/-- Two states are equal when their registers and their other fields are. -/
theorem State.ext_reg {t : State} (hx : ∀ k, s.reg k = t.reg k) (hm : s.mem = t.mem) (hc : s.icount = t.icount)
    (ht : s.mmioTable = t.mmioTable) (hn : s.numSyscalls = t.numSyscalls) (ha : s.hostAnswers = t.hostAnswers)
    (hh : s.hostCalls = t.hostCalls) : s = t := by
  have : s.x = t.x := Vector.ext fun k hk => hx ⟨k, hk⟩
  cases s; cases t; simp_all

@[simp] theorem reg_setByte (a : Word) (b : Byte) : (s.setByte a b).reg j = s.reg j := rfl

@[simp] theorem ip_setByte (a : Word) (b : Byte) : (s.setByte a b).ip = s.ip := rfl

@[simp] theorem fl_setByte (a : Word) (b : Byte) : (s.setByte a b).fl = s.fl := rfl

@[simp] theorem reg_recordCall (c : HostCall) : (s.recordCall c).reg j = s.reg j := rfl

@[simp] theorem reg_dispatched : s.dispatched.reg j = if ipIdx = j then s.ip + 4 else s.reg j :=
  reg_setReg s ipIdx j (s.ip + 4)

@[simp] theorem ip_dispatched : s.dispatched.ip = s.ip + 4 := by
  simp [State.ip, reg_dispatched]

@[simp] theorem fl_dispatched : s.dispatched.fl = s.fl := by
  simp [State.fl, reg_dispatched]

/-- Seen from the body, the instruction's address is where IP was. -/
@[simp] theorem instrAddr_dispatched : s.dispatched.instrAddr = s.ip := by
  simp [State.instrAddr]

theorem takeTrap_eq (k : TrapKind) : takeTrap k s = s.setReg flIdx (withHalt s.fl) := rfl

@[simp] theorem ip_takeTrap (k : TrapKind) : (takeTrap k s).ip = s.ip := by
  simp [takeTrap_eq]

theorem putResult_eq (d : RegIdx) (r : Word) :
    s.putResult d r = (s.setReg d r).setReg flIdx (withZ (s.setReg d r).fl (zOfResult r)) := rfl

end Ports

/-! ## The memory port -/

section Bytes

variable (s : State) (i : RegIdx) (v : Word) (a : Word)

@[simp] theorem byte_setReg : (s.setReg i v).byte a = s.byte a := rfl
@[simp] theorem byte_dispatched : s.dispatched.byte a = s.byte a := rfl
@[simp] theorem byte_recordCall (c : HostCall) : (s.recordCall c).byte a = s.byte a := rfl
@[simp] theorem byte_takeTrap (k : TrapKind) : (takeTrap k s).byte a = s.byte a := rfl

/-- The fetch depends on IP and memory only. -/
theorem fetch_congr {s t : State} (hip : t.ip = s.ip) (hm : t.mem = s.mem) : t.fetch = s.fetch := by
  simp [State.fetch, State.byte, hip, hm]

theorem mmioMatch_congr {s t : State} (h : t.mmioTable = s.mmioTable) (addr : Word) :
    t.mmioMatch addr = s.mmioMatch addr := by
  simp [State.mmioMatch, h]

end Bytes

end Sys2Proof.Machine
end

