-- ==== Sys2Proof/Laws/Memory.lean ====
section
/-! SUPPORT. The laws of raw memory: a read after a write, and every memory operation keeps the canonical form. -/

namespace Sys2Proof.Machine

/-! ## Reads -/

@[simp] theorem Memory.read_nil (a : Nat) : Memory.read [] a = Memory.unlisted := rfl

theorem Memory.read_cons (c : Host.Cell) (m : Memory) (a : Nat) :
    Memory.read (c :: m) a = if c.1 = a then c.2 else Memory.read m a := rfl

/-- Nothing listed at an address reads as unlisted. -/
theorem Memory.read_of_not_listed (m : Memory) (a : Nat) (h : ∀ c ∈ m, c.1 ≠ a) :
    Memory.read m a = Memory.unlisted := by
  induction m with
  | nil => rfl
  | cons c rest ih =>
    rw [Memory.read_cons, if_neg (h c (by simp)), ih fun d hd => h d (by simp [hd])]

theorem Memory.read_erase (m : Memory) (a b : Nat) :
    Memory.read (Memory.erase m a) b = if b = a then Memory.unlisted else Memory.read m b := by
  induction m with
  | nil => simp [Memory.erase]
  | cons c rest ih =>
    simp only [Memory.erase] at ih
    by_cases hc : c.1 = a
    · simp only [Memory.erase, List.filter_cons, hc, bne_self_eq_false, Bool.false_eq_true, if_false, ih,
        Memory.read_cons]
      by_cases hb : b = a <;> simp [hb]
      intro h; exact absurd h.symm hb
    · have : (c.1 != a) = true := by simpa using hc
      simp only [Memory.erase, List.filter_cons, this, if_true, ih, Memory.read_cons]
      by_cases hb : c.1 = b
      · simp [hb, show b ≠ a from hb ▸ hc]
      · simp [hb]

theorem Memory.read_insert (m : Memory) (a b : Nat) (v : Byte) (h : ∀ c ∈ m, c.1 ≠ a) :
    Memory.read (Memory.insert m a v) b = if b = a then v else Memory.read m b := by
  induction m with
  | nil => simp [Memory.insert, Memory.read_cons, eq_comm]
  | cons c rest ih =>
    have hrest : ∀ d ∈ rest, d.1 ≠ a := fun d hd => h d (by simp [hd])
    by_cases hlt : a < c.1
    · simp [Memory.insert, hlt, Memory.read_cons, eq_comm]
    · simp only [Memory.insert, hlt, if_false, Memory.read_cons, ih hrest]
      by_cases hb : c.1 = b
      · simp [hb, show b ≠ a from hb ▸ h c (by simp)]
      · simp [hb]

theorem Memory.not_listed_erase (m : Memory) (a : Nat) : ∀ c ∈ Memory.erase m a, c.1 ≠ a := by
  intro c hc
  simpa using (List.mem_filter.mp hc).2

/-- A read after a write: the written value at the address written, the old one everywhere else. -/
@[simp] theorem Memory.read_write (m : Memory) (a b : Nat) (v : Byte) :
    Memory.read (Memory.write m a v) b = if b = a then v else Memory.read m b := by
  unfold Memory.write
  split
  · next h => rw [Memory.read_erase, h]
  · rw [Memory.read_insert _ _ _ _ (Memory.not_listed_erase m a), Memory.read_erase]
    split <;> rfl

/-- The same, at the state's port. -/
@[simp] theorem byte_setByte (s : State) (a c : Word) (b : Byte) :
    (s.setByte a b).byte c = if c = a then b else s.byte c := by
  simp [State.byte, BitVec.toNat_inj]

/-- After an image is written, a byte of it reads as the image has it and every other as before. -/
theorem Memory.read_writeBytes (bs : List Byte) (m : Memory) (a b : Nat) :
    Memory.read (Memory.writeBytes m a bs) b =
      if a ≤ b then (bs[b - a]?).getD (Memory.read m b) else Memory.read m b := by
  induction bs generalizing m a with
  | nil => simp [Memory.writeBytes]
  | cons c rest ih =>
    rw [Memory.writeBytes, ih, Memory.read_write]
    rcases Nat.lt_trichotomy b a with h | h | h
    · simp [show ¬ a + 1 ≤ b by omega, show ¬ a ≤ b by omega, show b ≠ a by omega]
    · simp [h]
    · have : b - a = (b - (a + 1)) + 1 := by omega
      simp [show a + 1 ≤ b by omega, show a ≤ b by omega, show b ≠ a by omega, this]

/-! ## The canonical form -/

theorem Memory.wf_nil : Memory.wf [] := by simp [Memory.wf]

theorem Memory.wf_erase {m : Memory} (h : Memory.wf m) (a : Nat) : Memory.wf (Memory.erase m a) :=
  ⟨h.1.filter _, fun c hc => h.2 c (List.mem_filter.mp hc).1⟩

theorem Memory.mem_insert {m : Memory} {a : Nat} {v : Byte} {c : Host.Cell} (h : c ∈ Memory.insert m a v) :
    c = (a, v) ∨ c ∈ m := by
  induction m with
  | nil => simpa [Memory.insert] using h
  | cons d rest ih =>
    simp only [Memory.insert] at h
    split at h
    · simpa using h
    · rcases List.mem_cons.mp h with h | h
      · exact .inr (by simp [h])
      · exact (ih h).imp_right fun h => by simp [h]

theorem Memory.wf_insert {m : Memory} (h : Memory.wf m) {a : Nat} {v : Byte} (ha : a < 65536)
    (hv : v ≠ Memory.unlisted) (hn : ∀ c ∈ m, c.1 ≠ a) : Memory.wf (Memory.insert m a v) := by
  refine ⟨?_, fun c hc => (Memory.mem_insert hc).elim (fun e => e ▸ ⟨ha, hv⟩) (h.2 c)⟩
  have hp := h.1
  clear h
  induction m with
  | nil => simp [Memory.insert]
  | cons d rest ih =>
    obtain ⟨hd, hrest⟩ := List.pairwise_cons.mp hp
    simp only [Memory.insert]
    split
    · next hlt =>
      refine List.pairwise_cons.mpr ⟨fun c hc => ?_, hp⟩
      rcases List.mem_cons.mp hc with rfl | hc
      · exact hlt
      · exact hlt.trans (hd c hc)
    · next hlt =>
      refine List.pairwise_cons.mpr ⟨fun c hc => ?_, ih (fun c hc => hn c (by simp [hc])) hrest⟩
      rcases Memory.mem_insert hc with rfl | hc
      · exact lt_of_le_of_ne (by omega) (hn d (by simp))
      · exact hd c hc

/-- A write within the address space keeps the canonical form. -/
theorem Memory.wf_write {m : Memory} (h : Memory.wf m) {a : Nat} (ha : a < 65536) (v : Byte) :
    Memory.wf (Memory.write m a v) := by
  unfold Memory.write
  split
  · exact Memory.wf_erase h a
  · next hv => exact Memory.wf_insert (Memory.wf_erase h a) ha hv (Memory.not_listed_erase m a)

/-- The host's writes keep the canonical form. -/
theorem Memory.wf_applyMemWrites (ws : List (Word × Byte)) {m : Memory} (h : Memory.wf m) :
    Memory.wf (applyMemWrites m ws) := by
  induction ws generalizing m with
  | nil => exact h
  | cons w rest ih => exact ih (Memory.wf_write h w.1.isLt w.2)

/-- An image load within the address space keeps the canonical form. -/
theorem Memory.wf_writeBytes (bs : List Byte) {m : Memory} (h : Memory.wf m) {a : Nat}
    (ha : a + bs.length ≤ 65536) : Memory.wf (Memory.writeBytes m a bs) := by
  induction bs generalizing m a with
  | nil => exact h
  | cons b rest ih =>
    simp only [List.length_cons] at ha
    exact ih (Memory.wf_write h (by omega) b) (by omega)

end Sys2Proof.Machine
end

