-- ==== Sys2Proof/Laws/Flags.lean ====
section
/-! SUPPORT. The two flag updates bit by bit and as numbers. -/

namespace Sys2Proof.Machine

@[simp] theorem zFlag_withZ (fl : Word) (z : Bool) : zFlag (withZ fl z) = z := by
  cases z <;> simp [zFlag, withZ]

/-- `Z <- z` leaves every bit above bit 0. -/
theorem getLsbD_withZ (fl : Word) (z : Bool) (k : Nat) (hk : 1 ≤ k) :
    (withZ fl z).getLsbD k = fl.getLsbD k := by
  by_cases h : k < 16
  · interval_cases k <;> cases z <;> simp [withZ]
  · rw [BitVec.getLsbD_of_ge _ _ (by omega), BitVec.getLsbD_of_ge _ _ (by omega)]

/-- Clearing bit 0 as a number. -/
theorem toNat_and_FFFE (fl : Word) : (fl &&& 0xFFFE).toNat = fl.toNat / 2 * 2 := by
  have h : fl &&& (0xFFFE : Word) = (fl >>> 1) <<< 1 := by
    ext k hk
    interval_cases k <;> simp
  have := fl.isLt
  rw [h, BitVec.toNat_shiftLeft, BitVec.toNat_ushiftRight, Nat.shiftRight_eq_div_pow, Nat.shiftLeft_eq]
  omega

/-- `Z <- z` as a number: the low bit is replaced. -/
theorem toNat_withZ (fl : Word) (z : Bool) :
    (withZ fl z).toNat = fl.toNat / 2 * 2 + if z then 1 else 0 := by
  cases z
  · simpa [withZ] using toNat_and_FFFE fl
  · have h := (Nat.two_pow_add_eq_or_of_lt (i := 1) (b := 1) (by omega) (fl.toNat / 2)).symm
    rw [withZ, BitVec.toNat_or, toNat_and_FFFE, Nat.mul_comm]
    simpa using h

@[simp] theorem haltFlag_withHalt (fl : Word) : haltFlag (withHalt fl) = true := by
  simp [haltFlag, withHalt]

@[simp] theorem haltFlag_withZ (fl : Word) (z : Bool) : haltFlag (withZ fl z) = haltFlag fl :=
  getLsbD_withZ fl z 7 (by omega)

theorem toNat_withHalt (fl : Word) : (withHalt fl).toNat = fl.toNat ||| 0x80 := by
  simp [withHalt]

/-- Setting HALT again changes nothing. -/
@[simp] theorem withHalt_withHalt (fl : Word) : withHalt (withHalt fl) = withHalt fl := by
  simp [withHalt, BitVec.or_assoc]

@[simp] theorem zOfResult_eq_true (r : Word) : zOfResult r = true ↔ r.toNat = 0 := by
  simp [zOfResult, ← BitVec.toNat_inj]

@[simp] theorem fl_setZ (s : State) (z : Bool) : (s.setZ z).fl = withZ s.fl z := by simp [State.setZ]

@[simp] theorem reg_setZ (s : State) (z : Bool) (j : RegIdx) :
    (s.setZ z).reg j = if flIdx = j then withZ s.fl z else s.reg j := by simp [State.setZ]

@[simp] theorem byte_setZ (s : State) (z : Bool) (a : Word) : (s.setZ z).byte a = s.byte a := rfl

@[simp] theorem setZ_mem (s : State) (z : Bool) : (s.setZ z).mem = s.mem := rfl
@[simp] theorem setZ_icount (s : State) (z : Bool) : (s.setZ z).icount = s.icount := rfl
@[simp] theorem setZ_mmioTable (s : State) (z : Bool) : (s.setZ z).mmioTable = s.mmioTable := rfl
@[simp] theorem setZ_numSyscalls (s : State) (z : Bool) : (s.setZ z).numSyscalls = s.numSyscalls := rfl
@[simp] theorem setZ_hostAnswers (s : State) (z : Bool) : (s.setZ z).hostAnswers = s.hostAnswers := rfl
@[simp] theorem setZ_hostCalls (s : State) (z : Bool) : (s.setZ z).hostCalls = s.hostCalls := rfl

end Sys2Proof.Machine
end

