-- ==== Sys2Proof/Laws/Ops.lean ====
section
/-! SUPPORT. What the shared operations can do, said once: the register operand, the callback, the data accesses, the
arithmetic body and the step. -/

namespace Sys2Proof.Machine

/-! ## Register operands -/

@[simp] theorem withReg_regByte (i : RegIdx) (k : RegIdx → Result) : withReg (regByte i) k = k i := by
  have h : (regByte i).toNat < 32 := by simp
  rw [withReg, dif_pos h]
  congr 1
  exact Fin.ext (toNat_regByte i)

theorem withReg_of_ge {b : Byte} (h : ¬ b.toNat < 32) (k : RegIdx → Result) :
    withReg b k = .fault .regIndexRange := by simp [withReg, h]

/-- A register operand that gets as far as a next state names a register. -/
theorem withReg_eq_next {b : Byte} {k : RegIdx → Result} {t : State} (h : withReg b k = .next t) :
    ∃ i, b = regByte i ∧ k i = .next t := by
  by_cases hb : b.toNat < 32
  · obtain ⟨i, rfl⟩ := exists_regByte hb
    exact ⟨i, rfl, by simpa using h⟩
  · simp [withReg_of_ge hb] at h

/-- A register operand that ends in a fault is out of range, or what follows it faults. -/
theorem withReg_eq_fault {b : Byte} {k : RegIdx → Result} {f : Fault} (h : withReg b k = .fault f) :
    (¬ b.toNat < 32 ∧ f = .regIndexRange) ∨ ∃ i, b = regByte i ∧ k i = .fault f := by
  by_cases hb : b.toNat < 32
  · obtain ⟨i, rfl⟩ := exists_regByte hb
    exact .inr ⟨i, rfl, by simpa using h⟩
  · rw [withReg_of_ge hb] at h
    cases h
    exact .inl ⟨hb, rfl⟩

theorem withReg_ne_refused {b : Byte} {k : RegIdx → Result} {r : Refusal} (h : ∀ i, k i ≠ .refused r) :
    withReg b k ≠ .refused r := by
  unfold withReg
  split
  · exact h _
  · simp

/-! ## The callback -/

section CallHost

variable (c : HostCall) (s : State)

@[simp] theorem callHost_mmioTable : (callHost c s).2.mmioTable = s.mmioTable := rfl
@[simp] theorem callHost_numSyscalls : (callHost c s).2.numSyscalls = s.numSyscalls := rfl
@[simp] theorem callHost_hostCalls : (callHost c s).2.hostCalls = s.hostCalls ++ [c] := rfl
@[simp] theorem callHost_hostAnswers : (callHost c s).2.hostAnswers = s.hostAnswers.tail := rfl

theorem callHost_mem : (callHost c s).2.mem = applyMemWrites s.mem (s.hostAnswer c).writes.memWrites := rfl

theorem callHost_x : (callHost c s).2.x = applyRegWrites s.x (s.hostAnswer c).writes.regWrites := rfl

/-- A callback that writes nothing into the core leaves all but the record of calls. -/
theorem callHost_of_quiet (h : (s.hostAnswer c).writes = {}) : (callHost c s).2 = s.recordCall c := by
  simp [callHost, h]

/-- The answer is the next listed one when there is one. -/
theorem hostAnswer_of_cons {a : HostAnswer} {rest : List HostAnswer} (h : s.hostAnswers = a :: rest) :
    s.hostAnswer c = a := by simp [State.hostAnswer, h]

end CallHost

/-! ## Built from the machine's primitive updates -/

/-- `t` comes from `s` by writes of registers, writes of raw bytes and callbacks. Every next state of an instruction is
built so (`exec_built`), which is what the invariants need of it. -/
inductive Built (s : State) : State → Prop where
  | refl : Built s s
  | reg {t : State} (h : Built s t) (i : RegIdx) (v : Word) : Built s (t.setReg i v)
  | byte {t : State} (h : Built s t) (a : Word) (b : Byte) : Built s (t.setByte a b)
  | call {t : State} (h : Built s t) (c : HostCall) : Built s (callHost c t).2

theorem Built.loadInto {s : State} {r : Option Word × State} (h : Built s r.2) (d : RegIdx) :
    Built s (loadInto d r) := by
  unfold Machine.loadInto
  split
  · exact h.reg d _
  · exact h

/-! ## The data accesses -/

theorem memRead8_built (addr : Word) (s : State) : Built s (memRead8 addr s).2 := by
  unfold memRead8
  split
  · exact .refl
  · split
    · exact Built.refl.call _
    · exact .refl

theorem memRead16_built {addr : Word} {s : State} {r : Option Word × State} (h : memRead16 addr s = .ok r) :
    Built s r.2 := by
  unfold memRead16 at h
  split at h
  · cases h
  · split at h
    · cases h; exact .refl
    · split at h
      · cases h; exact (Built.refl.call _).call _
      · cases h; exact .refl

theorem memWrite8_built (addr v : Word) (s : State) : Built s (memWrite8 addr v s) := by
  unfold memWrite8
  split
  · exact Built.refl.byte _ _
  · split
    · exact Built.refl.call _
    · exact .refl

theorem memWrite16_built {addr v : Word} {s t : State} (h : memWrite16 addr v s = .ok t) : Built s t := by
  unfold memWrite16 at h
  split at h
  · cases h
  · split at h
    · cases h; exact (Built.refl.byte _ _).byte _ _
    · split at h
      · cases h; exact (Built.refl.call _).call _
      · cases h; exact .refl

/-- The one way a 16-bit read faults. -/
theorem memRead16_eq_error {addr : Word} {s : State} {f : Fault} :
    memRead16 addr s = .error f ↔ addr = 0xFFFF ∧ f = .accessPastTop := by
  unfold memRead16
  split
  · next h => simp [h, eq_comm]
  · next h =>
    simp only [h, false_and, iff_false]
    split
    · simp
    · split <;> simp

/-- The one way a 16-bit write faults. -/
theorem memWrite16_eq_error {addr v : Word} {s : State} {f : Fault} :
    memWrite16 addr v s = .error f ↔ addr = 0xFFFF ∧ f = .accessPastTop := by
  unfold memWrite16
  split
  · next h => simp [h, eq_comm]
  · next h =>
    simp only [h, false_and, iff_false]
    split
    · simp
    · split <;> simp

theorem resultOf_eq_next {r : Except Fault State} {t : State} : resultOf r = .next t ↔ r = .ok t := by
  cases r <;> simp [resultOf]

theorem resultOf_eq_fault {r : Except Fault State} {f : Fault} : resultOf r = .fault f ↔ r = .error f := by
  cases r <;> simp [resultOf]

theorem resultOf_ne_refused (r : Except Fault State) (f : Refusal) : resultOf r ≠ .refused f := by
  cases r <;> simp [resultOf]

/-! ## The arithmetic body -/

/-- With register operands the body is its operation's outcome, put in place. -/
theorem aluBody_regByte (op : Word → Word → Except Fault Word) (d a b : RegIdx) (s : State) :
    aluBody op (regByte d) (regByte a) (regByte b) s =
      resultOf ((op (s.reg a) (s.reg b)).map (s.putResult d)) := by
  simp only [aluBody, withReg_regByte]

theorem aluBody_of_ok {op : Word → Word → Except Fault Word} {d a b : RegIdx} {s : State} {r : Word}
    (h : op (s.reg a) (s.reg b) = .ok r) :
    aluBody op (regByte d) (regByte a) (regByte b) s = .next (s.putResult d r) := by
  rw [aluBody_regByte, h]; rfl

theorem aluBody_of_error {op : Word → Word → Except Fault Word} {d a b : RegIdx} {s : State} {f : Fault}
    (h : op (s.reg a) (s.reg b) = .error f) :
    aluBody op (regByte d) (regByte a) (regByte b) s = .fault f := by
  rw [aluBody_regByte, h]; rfl

/-- Everything an arithmetic body that completes has done. -/
theorem aluBody_eq_next {op : Word → Word → Except Fault Word} {rd ra rb : Byte} {s t : State}
    (h : aluBody op rd ra rb s = .next t) :
    ∃ d a b r, rd = regByte d ∧ ra = regByte a ∧ rb = regByte b ∧ op (s.reg a) (s.reg b) = .ok r ∧
      t = s.putResult d r := by
  obtain ⟨d, hd, h1⟩ := withReg_eq_next h
  obtain ⟨a, ha, h2⟩ := withReg_eq_next h1
  obtain ⟨b, hb, h3⟩ := withReg_eq_next h2
  rw [resultOf_eq_next] at h3
  cases ho : op (s.reg a) (s.reg b) with
  | ok r => rw [ho] at h3; cases h3; exact ⟨d, a, b, r, hd, ha, hb, ho, rfl⟩
  | error f => rw [ho] at h3; cases h3

/-- Everything an arithmetic body that faults has seen. -/
theorem aluBody_eq_fault {op : Word → Word → Except Fault Word} {rd ra rb : Byte} {s : State} {f : Fault}
    (h : aluBody op rd ra rb s = .fault f) :
    (¬ (rd.toNat < 32 ∧ ra.toNat < 32 ∧ rb.toNat < 32) ∧ f = .regIndexRange) ∨
    ∃ d a b, rd = regByte d ∧ ra = regByte a ∧ rb = regByte b ∧ op (s.reg a) (s.reg b) = .error f := by
  rcases withReg_eq_fault h with ⟨hn, e⟩ | ⟨d, hd, h1⟩
  · exact .inl ⟨fun hc => hn hc.1, e⟩
  rcases withReg_eq_fault h1 with ⟨hn, e⟩ | ⟨a, ha, h2⟩
  · exact .inl ⟨fun hc => hn hc.2.1, e⟩
  rcases withReg_eq_fault h2 with ⟨hn, e⟩ | ⟨b, hb, h3⟩
  · exact .inl ⟨fun hc => hn hc.2.2, e⟩
  rw [resultOf_eq_fault] at h3
  cases ho : op (s.reg a) (s.reg b) with
  | ok r => rw [ho] at h3; cases h3
  | error e => rw [ho] at h3; cases h3; exact .inr ⟨d, a, b, hd, ha, hb, ho⟩

theorem aluBody_ne_refused (op : Word → Word → Except Fault Word) (rd ra rb : Byte) (s : State) (r : Refusal) :
    aluBody op rd ra rb s ≠ .refused r :=
  withReg_ne_refused fun _ => withReg_ne_refused fun _ => withReg_ne_refused fun _ => resultOf_ne_refused _ r

theorem putResult_built (s : State) (d : RegIdx) (r : Word) : Built s (s.putResult d r) :=
  (Built.refl.reg d r).reg flIdx _

/-- What `putResult` leaves in a register that is not the flags. -/
theorem reg_putResult (s : State) (d j : RegIdx) (r : Word) (hj : flIdx ≠ j) :
    (s.putResult d r).reg j = if d = j then r else s.reg j := by
  simp [State.putResult, hj]

/-- What `putResult` leaves in the flags: bit 0 of what the destination write left is replaced. -/
theorem fl_putResult (s : State) (d : RegIdx) (r : Word) :
    (s.putResult d r).fl = withZ (if d = flIdx then r else s.fl) (zOfResult r) := by
  simp [State.putResult]

@[simp] theorem byte_putResult (s : State) (d : RegIdx) (r a : Word) : (s.putResult d r).byte a = s.byte a := rfl
@[simp] theorem putResult_icount (s : State) (d : RegIdx) (r : Word) : (s.putResult d r).icount = s.icount := rfl
@[simp] theorem putResult_mmioTable (s : State) (d : RegIdx) (r : Word) :
    (s.putResult d r).mmioTable = s.mmioTable := rfl
@[simp] theorem putResult_numSyscalls (s : State) (d : RegIdx) (r : Word) :
    (s.putResult d r).numSyscalls = s.numSyscalls := rfl
@[simp] theorem putResult_hostAnswers (s : State) (d : RegIdx) (r : Word) :
    (s.putResult d r).hostAnswers = s.hostAnswers := rfl
@[simp] theorem putResult_hostCalls (s : State) (d : RegIdx) (r : Word) :
    (s.putResult d r).hostCalls = s.hostCalls := rfl

/-! ## The arms -/

section Arms

variable (s : State)

theorem exec_nop : exec .nop s = execNop s := rfl
theorem exec_ldi (rd : Byte) (imm : Word) : exec (.ldi rd imm) s = execLdi rd imm s := rfl
theorem exec_ldr (rd ra : Byte) : exec (.ldr rd ra) s = execLdr rd ra s := rfl
theorem exec_ldrb (rd ra : Byte) : exec (.ldrb rd ra) s = execLdrb rd ra s := rfl
theorem exec_add (rd ra rb : Byte) : exec (.add rd ra rb) s = execAdd rd ra rb s := rfl
theorem exec_sub (rd ra rb : Byte) : exec (.sub rd ra rb) s = execSub rd ra rb s := rfl
theorem exec_mul (rd ra rb : Byte) : exec (.mul rd ra rb) s = execMul rd ra rb s := rfl
theorem exec_div (rd ra rb : Byte) : exec (.div rd ra rb) s = execDiv rd ra rb s := rfl
theorem exec_mod (rd ra rb : Byte) : exec (.mod rd ra rb) s = execMod rd ra rb s := rfl
theorem exec_and (rd ra rb : Byte) : exec (.and rd ra rb) s = execAnd rd ra rb s := rfl
theorem exec_or (rd ra rb : Byte) : exec (.or rd ra rb) s = execOr rd ra rb s := rfl
theorem exec_xor (rd ra rb : Byte) : exec (.xor rd ra rb) s = execXor rd ra rb s := rfl
theorem exec_shl (rd ra rb : Byte) : exec (.shl rd ra rb) s = execShl rd ra rb s := rfl
theorem exec_shr (rd ra rb : Byte) : exec (.shr rd ra rb) s = execShr rd ra rb s := rfl
theorem exec_jmp (imm : Word) : exec (.jmp imm) s = execJmp imm s := rfl
theorem exec_jz (imm : Word) : exec (.jz imm) s = execJz imm s := rfl
theorem exec_jr (ra : Byte) : exec (.jr ra) s = execJr ra s := rfl
theorem exec_sti (rs : Byte) (imm : Word) : exec (.sti rs imm) s = execSti rs imm s := rfl
theorem exec_stib (rs : Byte) (imm : Word) : exec (.stib rs imm) s = execStib rs imm s := rfl
theorem exec_str (rs ra : Byte) : exec (.str rs ra) s = execStr rs ra s := rfl
theorem exec_strb (rs ra : Byte) : exec (.strb rs ra) s = execStrb rs ra s := rfl
theorem exec_sys : exec .sys s = execSys s := rfl

end Arms

/-! ## The instruction and the step -/

/-- Every next state of an instruction is built from primitive updates. -/
theorem exec_built {i : Instr} {s t : State} (h : exec i s = .next t) : Built s t := by
  have alu : ∀ {op rd ra rb}, aluBody op rd ra rb s = .next t → Built s t := fun h => by
    obtain ⟨d, a, b, r, -, -, -, -, rfl⟩ := aluBody_eq_next h
    exact putResult_built s d r
  cases i with
  | nop => cases h; exact .refl
  | ldi rd imm =>
    rw [exec_ldi, execLdi] at h
    obtain ⟨d, -, h⟩ := withReg_eq_next h
    cases h; exact Built.refl.reg d imm
  | ldr rd ra =>
    rw [exec_ldr, execLdr] at h
    obtain ⟨d, -, h⟩ := withReg_eq_next h
    obtain ⟨a, -, h⟩ := withReg_eq_next h
    rw [resultOf_eq_next] at h
    cases hr : memRead16 (s.reg a) s with
    | error f => rw [hr] at h; cases h
    | ok r => rw [hr] at h; cases h; exact (memRead16_built hr).loadInto d
  | ldrb rd ra =>
    rw [exec_ldrb, execLdrb] at h
    obtain ⟨d, -, h⟩ := withReg_eq_next h
    obtain ⟨a, -, h⟩ := withReg_eq_next h
    cases h; exact (memRead8_built _ s).loadInto d
  | add => rw [exec_add, execAdd] at h; exact alu h
  | sub => rw [exec_sub, execSub] at h; exact alu h
  | mul => rw [exec_mul, execMul] at h; exact alu h
  | div => rw [exec_div, execDiv] at h; exact alu h
  | mod => rw [exec_mod, execMod] at h; exact alu h
  | and => rw [exec_and, execAnd] at h; exact alu h
  | or => rw [exec_or, execOr] at h; exact alu h
  | xor => rw [exec_xor, execXor] at h; exact alu h
  | shl => rw [exec_shl, execShl] at h; exact alu h
  | shr => rw [exec_shr, execShr] at h; exact alu h
  | jmp imm => cases h; exact Built.refl.reg ipIdx imm
  | jz imm =>
    simp only [exec, execJz] at h
    split at h
    · cases h; exact (Built.refl.reg ipIdx imm).reg flIdx _
    · cases h; exact .refl
  | jr ra =>
    rw [exec_jr, execJr] at h
    obtain ⟨a, -, h⟩ := withReg_eq_next h
    cases h; exact Built.refl.reg ipIdx _
  | sti rs imm =>
    rw [exec_sti, execSti] at h
    obtain ⟨r, -, h⟩ := withReg_eq_next h
    exact memWrite16_built (resultOf_eq_next.mp h)
  | stib rs imm =>
    rw [exec_stib, execStib] at h
    obtain ⟨r, -, h⟩ := withReg_eq_next h
    cases h; exact memWrite8_built _ _ s
  | str rs ra =>
    rw [exec_str, execStr] at h
    obtain ⟨r, -, h⟩ := withReg_eq_next h
    obtain ⟨a, -, h⟩ := withReg_eq_next h
    exact memWrite16_built (resultOf_eq_next.mp h)
  | strb rs ra =>
    rw [exec_strb, execStrb] at h
    obtain ⟨r, -, h⟩ := withReg_eq_next h
    obtain ⟨a, -, h⟩ := withReg_eq_next h
    cases h; exact memWrite8_built _ _ s
  | sys =>
    simp only [exec, execSys] at h
    split at h
    · cases h; exact Built.refl.call _
    · cases h

/-- No arm refuses. -/
theorem exec_ne_refused (i : Instr) (s : State) (r : Refusal) : exec i s ≠ .refused r := by
  cases i with
  | nop => simp [exec, execNop]
  | ldi => rw [exec_ldi]; exact withReg_ne_refused fun d => by simp
  | ldr => rw [exec_ldr]; exact withReg_ne_refused fun d => withReg_ne_refused fun a => resultOf_ne_refused _ r
  | ldrb => rw [exec_ldrb]; exact withReg_ne_refused fun d => withReg_ne_refused fun a => by simp
  | add => rw [exec_add]; exact aluBody_ne_refused _ _ _ _ s r
  | sub => rw [exec_sub]; exact aluBody_ne_refused _ _ _ _ s r
  | mul => rw [exec_mul]; exact aluBody_ne_refused _ _ _ _ s r
  | div => rw [exec_div]; exact aluBody_ne_refused _ _ _ _ s r
  | mod => rw [exec_mod]; exact aluBody_ne_refused _ _ _ _ s r
  | and => rw [exec_and]; exact aluBody_ne_refused _ _ _ _ s r
  | or => rw [exec_or]; exact aluBody_ne_refused _ _ _ _ s r
  | xor => rw [exec_xor]; exact aluBody_ne_refused _ _ _ _ s r
  | shl => rw [exec_shl]; exact aluBody_ne_refused _ _ _ _ s r
  | shr => rw [exec_shr]; exact aluBody_ne_refused _ _ _ _ s r
  | jmp => simp [exec, execJmp]
  | jz => simp only [exec, execJz]; split <;> simp
  | jr => rw [exec_jr]; exact withReg_ne_refused fun a => by simp
  | sti => rw [exec_sti]; exact withReg_ne_refused fun d => resultOf_ne_refused _ r
  | stib => rw [exec_stib]; exact withReg_ne_refused fun d => by simp
  | str => rw [exec_str]; exact withReg_ne_refused fun d => withReg_ne_refused fun a => resultOf_ne_refused _ r
  | strb => rw [exec_strb]; exact withReg_ne_refused fun d => withReg_ne_refused fun a => by simp
  | sys => simp only [exec, execSys]; split <;> simp

/-- Everything a step that has a next state can have done. -/
theorem step_eq_next {s t : State} (h : step s = .next t) :
    (s.aligned = false ∧ t = takeTrap .unalignedIP s) ∨
    (s.aligned = true ∧ decode s.fetch = .invalid ∧ t = takeTrap .invalidOpcode s) ∨
    ∃ i, s.aligned = true ∧ decode s.fetch = .instr i ∧ exec i s.dispatched = .next t := by
  unfold step at h
  split at h
  · next ha =>
    split at h
    · next hd => cases h; exact .inr (.inl ⟨ha, hd, rfl⟩)
    · cases h
    · next i hd => exact .inr (.inr ⟨i, ha, hd, h⟩)
  · next ha => cases h; exact .inl ⟨by simpa using ha, rfl⟩

/-- Clearing the two low bits as a number. -/
theorem toNat_alignDown (a : Word) : (alignDown a).toNat = a.toNat / 4 * 4 := by
  have h : alignDown a = (a >>> 2) <<< 2 := by
    ext k hk
    interval_cases k <;> simp [alignDown]
  have := a.isLt
  rw [h, BitVec.toNat_shiftLeft, BitVec.toNat_ushiftRight, Nat.shiftRight_eq_div_pow, Nat.shiftLeft_eq]
  omega

/-- The instruction placed by `withFetchWord` is what the next step fetches. -/
theorem fetch_withFetchWord (s : State) (nbits w : Nat) :
    (s.withFetchWord nbits w).aligned = true ∧ (s.withFetchWord nbits w).fetch = bytesOfTableWord nbits w := by
  have hip : (s.withFetchWord nbits w).ip = alignDown s.ip := by
    simp [State.withFetchWord, State.placeInstr, State.ip]
  have hal : (alignDown s.ip).toNat % 4 = 0 := by
    rw [toNat_alignDown]
    omega
  refine ⟨by simp [State.aligned, hip, hal], ?_⟩
  have h : ∀ a b : Word, (alignDown s.ip + a = alignDown s.ip + b) = (a = b) := fun a b => by simp
  have h0 : ∀ b : Word, (alignDown s.ip = alignDown s.ip + b) = (0 = b) := fun b => by
    simpa using h 0 b
  simp [State.fetch, State.withFetchWord, State.placeInstr, h, h0]

end Sys2Proof.Machine
end

