-- ==== Sys2Proof/Laws/Exec.lean ====
section
/-! SUPPORT. What an instruction that makes no callback can have done, one case per shape of effect. The invariants and
the whole-machine rules about registers, flags and memory read off it. -/

namespace Sys2Proof.Machine

/-- The effects of an instruction `i` in `s` when no callback runs. -/
inductive Quiet (i : Instr) (s : State) : State → Prop where
  /-- `nop`, a `jz` not taken, a silent load or store. -/
  | nothing (h : i.op.isAlu = false) (hz : i.op = .jz → zFlag s.fl = false) : Quiet i s s
  /-- `ldi` and the loads: the named register, no flag. -/
  | load (d : RegIdx) (v : Word) (h : i.op.isAlu = false) (hz : i.op ≠ .jz) (hd : i.destByte = some (regByte d)) :
      Quiet i s (s.setReg d v)
  /-- The ten operations: the named register, then Z. -/
  | alu (d : RegIdx) (r : Word) (h : i.op.isAlu = true) (hd : i.destByte = some (regByte d)) :
      Quiet i s (s.putResult d r)
  /-- `jmp` and `jr`. -/
  | jump (v : Word) (h : i.op = .jmp ∨ i.op = .jr) : Quiet i s (s.setReg ipIdx v)
  /-- A `jz` taken. -/
  | jzTaken (v : Word) (h : i.op = .jz) : Quiet i s ((s.setReg ipIdx v).setZ false)
  /-- A raw 8-bit store, the address with where it comes from. -/
  | byteStore (a v : Word) (h : (∃ r, i = .stib r a) ∨ ∃ r b, i = .strb r (regByte b) ∧ a = s.reg b) :
      Quiet i s (s.setByte a (lowByte v))
  /-- A raw 16-bit store, the address with where it comes from. -/
  | wordStore (a v : Word) (h : (∃ r, i = .sti r a) ∨ ∃ r b, i = .str r (regByte b) ∧ a = s.reg b) :
      Quiet i s (s.setRawWord a v)

/-- A callback is never quiet: it is recorded. -/
theorem callHost_not_quiet (c : HostCall) (s : State) : ¬ NoHostCall s (callHost c s).2 := by
  simp [NoHostCall]

theorem callHost_twice_not_quiet (c d : HostCall) (s : State) :
    ¬ NoHostCall s (callHost d (callHost c s).2).2 := by
  simp [NoHostCall]

/-- The record of calls after a load is that of its read. -/
@[simp] theorem loadInto_hostCalls (d : RegIdx) (r : Option Word × State) :
    (loadInto d r).hostCalls = r.2.hostCalls := by
  unfold loadInto; split <;> rfl

/-- A quiet 8-bit read leaves the state as it is. -/
theorem memRead8_quiet {addr : Word} {s : State} (h : NoHostCall s (memRead8 addr s).2) :
    (memRead8 addr s).2 = s := by
  unfold memRead8 at *
  split at h
  · rfl
  · split at h
    · exact absurd h (callHost_not_quiet _ s)
    · simp_all

/-- A quiet 16-bit read leaves the state as it is. -/
theorem memRead16_quiet {addr : Word} {s : State} {r : Option Word × State} (hr : memRead16 addr s = .ok r)
    (h : NoHostCall s r.2) : r.2 = s := by
  unfold memRead16 at hr
  split at hr
  · cases hr
  · split at hr
    · cases hr; rfl
    · split at hr
      · cases hr; exact absurd h (callHost_twice_not_quiet _ _ s)
      · cases hr; rfl

/-- A quiet 8-bit write is a raw store or nothing. -/
theorem memWrite8_quiet {addr v : Word} {s : State} (h : NoHostCall s (memWrite8 addr v s)) :
    memWrite8 addr v s = s ∨ memWrite8 addr v s = s.setByte addr (lowByte v) := by
  unfold memWrite8 at *
  split at h
  · exact .inr (by simp_all)
  · split at h
    · exact absurd h (callHost_not_quiet _ s)
    · exact .inl (by simp_all)

/-- A quiet 16-bit write is a raw store or nothing. -/
theorem memWrite16_quiet {addr v : Word} {s t : State} (hr : memWrite16 addr v s = .ok t) (h : NoHostCall s t) :
    t = s ∨ t = s.setRawWord addr v := by
  unfold memWrite16 at hr
  split at hr
  · cases hr
  · split at hr
    · cases hr; exact .inr rfl
    · split at hr
      · cases hr; exact absurd h (callHost_twice_not_quiet _ _ s)
      · cases hr; exact .inl rfl

/-- A load that leaves its read's state as it found it either writes its register or does nothing. -/
theorem loadInto_quiet {i : Instr} {s : State} {d : RegIdx} {r : Option Word × State} (hs : r.2 = s)
    (ha : i.op.isAlu = false) (hz : i.op ≠ .jz) (hd : i.destByte = some (regByte d)) : Quiet i s (loadInto d r) := by
  unfold loadInto
  split
  · next v _ => rw [hs]; exact .load d v ha hz hd
  · rw [hs]; exact .nothing ha fun h => absurd h hz

/-- Everything an instruction that makes no callback can have done. -/
theorem exec_quiet {i : Instr} {s t : State} (h : exec i s = .next t) (hq : NoHostCall s t) : Quiet i s t := by
  have alu : ∀ {op rd ra rb}, i.op.isAlu = true → i.destByte = some rd → aluBody op rd ra rb s = .next t →
      Quiet i s t := fun ha hd h => by
    obtain ⟨d, a, b, r, rfl, -, -, -, rfl⟩ := aluBody_eq_next h
    exact .alu d r ha hd
  cases i with
  | nop => cases h; exact .nothing rfl nofun
  | ldi rd imm =>
    rw [exec_ldi, execLdi] at h
    obtain ⟨d, hd, h1⟩ := withReg_eq_next h
    cases h1; exact .load d imm rfl nofun (by rw [hd]; rfl)
  | ldr rd ra =>
    rw [exec_ldr, execLdr] at h
    obtain ⟨d, hd, h1⟩ := withReg_eq_next h
    obtain ⟨a, -, h2⟩ := withReg_eq_next h1
    rw [resultOf_eq_next] at h2
    cases hr : memRead16 (s.reg a) s with
    | error f => rw [hr] at h2; cases h2
    | ok r =>
      rw [hr] at h2; cases h2
      rw [NoHostCall, loadInto_hostCalls] at hq
      exact loadInto_quiet (memRead16_quiet hr hq) rfl nofun (by rw [hd]; rfl)
  | ldrb rd ra =>
    rw [exec_ldrb, execLdrb] at h
    obtain ⟨d, hd, h1⟩ := withReg_eq_next h
    obtain ⟨a, -, h2⟩ := withReg_eq_next h1
    cases h2
    rw [NoHostCall, loadInto_hostCalls] at hq
    exact loadInto_quiet (memRead8_quiet hq) rfl nofun (by rw [hd]; rfl)
  | add => rw [exec_add, execAdd] at h; exact alu rfl rfl h
  | sub => rw [exec_sub, execSub] at h; exact alu rfl rfl h
  | mul => rw [exec_mul, execMul] at h; exact alu rfl rfl h
  | div => rw [exec_div, execDiv] at h; exact alu rfl rfl h
  | mod => rw [exec_mod, execMod] at h; exact alu rfl rfl h
  | and => rw [exec_and, execAnd] at h; exact alu rfl rfl h
  | or => rw [exec_or, execOr] at h; exact alu rfl rfl h
  | xor => rw [exec_xor, execXor] at h; exact alu rfl rfl h
  | shl => rw [exec_shl, execShl] at h; exact alu rfl rfl h
  | shr => rw [exec_shr, execShr] at h; exact alu rfl rfl h
  | jmp imm => cases h; exact .jump imm (.inl rfl)
  | jz imm =>
    simp only [exec_jz, execJz] at h
    split at h
    · cases h; exact .jzTaken imm rfl
    · next hz => cases h; exact .nothing rfl fun _ => by simpa using hz
  | jr ra =>
    rw [exec_jr, execJr] at h
    obtain ⟨a, -, h1⟩ := withReg_eq_next h
    cases h1; exact .jump _ (.inr rfl)
  | sti rs imm =>
    rw [exec_sti, execSti] at h
    obtain ⟨r, -, h1⟩ := withReg_eq_next h
    rcases memWrite16_quiet (resultOf_eq_next.mp h1) hq with rfl | rfl
    · exact .nothing rfl nofun
    · exact .wordStore _ _ (.inl ⟨rs, rfl⟩)
  | stib rs imm =>
    rw [exec_stib, execStib] at h
    obtain ⟨r, -, h1⟩ := withReg_eq_next h
    cases h1
    rcases memWrite8_quiet hq with e | e <;> rw [e]
    · exact .nothing rfl nofun
    · exact .byteStore _ _ (.inl ⟨rs, rfl⟩)
  | str rs ra =>
    rw [exec_str, execStr] at h
    obtain ⟨r, -, h1⟩ := withReg_eq_next h
    obtain ⟨a, ha, h2⟩ := withReg_eq_next h1
    rcases memWrite16_quiet (resultOf_eq_next.mp h2) hq with rfl | rfl
    · exact .nothing rfl nofun
    · exact .wordStore _ _ (.inr ⟨rs, a, by rw [ha], rfl⟩)
  | strb rs ra =>
    rw [exec_strb, execStrb] at h
    obtain ⟨r, -, h1⟩ := withReg_eq_next h
    obtain ⟨a, ha, h2⟩ := withReg_eq_next h1
    cases h2
    rcases memWrite8_quiet hq with e | e <;> rw [e]
    · exact .nothing rfl nofun
    · exact .byteStore _ _ (.inr ⟨rs, a, by rw [ha], rfl⟩)
  | sys =>
    simp only [exec_sys, execSys] at h
    split at h
    · cases h; exact absurd hq (callHost_not_quiet _ s)
    · cases h

end Sys2Proof.Machine
end

