-- ==== Sys2Proof/Laws/PerInstr.lean ====
section
/-! SUPPORT. Statements about each instruction as syntax, one lemma per constructor. `Encoding`: the encoder puts the
instruction's own opcode in the first byte, that byte selects the instruction's operation, and the bytes its scheme does
not use are zero. -/

namespace Sys2Proof.Laws.Encoding

/-- The statement about one instruction. -/
def Statement (i : Instr) : Prop :=
  (encode i).b0 = opcodeOf i.op ∧ opOfByte (encode i).b0 = some i.op ∧ clearUnused (schemeOf i.op) (encode i) = encode i

theorem nop : Statement .nop := ⟨rfl, opOfByte_opcodeOf .nop, rfl⟩
theorem ldi (rd : Byte) (imm : Word) : Statement (.ldi rd imm) := ⟨rfl, opOfByte_opcodeOf .ldi, rfl⟩
theorem ldr (rd ra : Byte) : Statement (.ldr rd ra) := ⟨rfl, opOfByte_opcodeOf .ldr, rfl⟩
theorem ldrb (rd ra : Byte) : Statement (.ldrb rd ra) := ⟨rfl, opOfByte_opcodeOf .ldrb, rfl⟩
theorem add (rd ra rb : Byte) : Statement (.add rd ra rb) := ⟨rfl, opOfByte_opcodeOf .add, rfl⟩
theorem sub (rd ra rb : Byte) : Statement (.sub rd ra rb) := ⟨rfl, opOfByte_opcodeOf .sub, rfl⟩
theorem mul (rd ra rb : Byte) : Statement (.mul rd ra rb) := ⟨rfl, opOfByte_opcodeOf .mul, rfl⟩
theorem div (rd ra rb : Byte) : Statement (.div rd ra rb) := ⟨rfl, opOfByte_opcodeOf .div, rfl⟩
theorem mod (rd ra rb : Byte) : Statement (.mod rd ra rb) := ⟨rfl, opOfByte_opcodeOf .mod, rfl⟩
theorem and (rd ra rb : Byte) : Statement (.and rd ra rb) := ⟨rfl, opOfByte_opcodeOf .and, rfl⟩
theorem or (rd ra rb : Byte) : Statement (.or rd ra rb) := ⟨rfl, opOfByte_opcodeOf .or, rfl⟩
theorem xor (rd ra rb : Byte) : Statement (.xor rd ra rb) := ⟨rfl, opOfByte_opcodeOf .xor, rfl⟩
theorem shl (rd ra rb : Byte) : Statement (.shl rd ra rb) := ⟨rfl, opOfByte_opcodeOf .shl, rfl⟩
theorem shr (rd ra rb : Byte) : Statement (.shr rd ra rb) := ⟨rfl, opOfByte_opcodeOf .shr, rfl⟩
theorem jmp (imm : Word) : Statement (.jmp imm) := ⟨rfl, opOfByte_opcodeOf .jmp, rfl⟩
theorem jz (imm : Word) : Statement (.jz imm) := ⟨rfl, opOfByte_opcodeOf .jz, rfl⟩
theorem jr (ra : Byte) : Statement (.jr ra) := ⟨rfl, opOfByte_opcodeOf .jr, rfl⟩
theorem sti (rs : Byte) (imm : Word) : Statement (.sti rs imm) := ⟨rfl, opOfByte_opcodeOf .sti, rfl⟩
theorem stib (rs : Byte) (imm : Word) : Statement (.stib rs imm) := ⟨rfl, opOfByte_opcodeOf .stib, rfl⟩
theorem str (rs ra : Byte) : Statement (.str rs ra) := ⟨rfl, opOfByte_opcodeOf .str, rfl⟩
theorem strb (rs ra : Byte) : Statement (.strb rs ra) := ⟨rfl, opOfByte_opcodeOf .strb, rfl⟩
theorem sys : Statement .sys := ⟨rfl, opOfByte_opcodeOf .sys, rfl⟩

end Sys2Proof.Laws.Encoding
end

