-- ==== Sys2Proof/Tests/Slice0.lean ====
section
/-! SUPPORT. The model's own tests. Every expected value is one of spec/95_test_vectors.md (S<n>, V<n>.<m>, P<n>), or is
read off the encodings of spec/30_encoding.md. The last part shows, for each statement with hypotheses, that they can be
met. -/

namespace Sys2Proof.Tests

open Sys2Proof.Machine Sys2Proof.Spec

/-! ## The states the vectors speak of -/

/-- `e0` of V2: write-only. -/
def e0 : MmioEntry := ⟨0xA000, 0xA010, false, true⟩

/-- `e1` of V2: read-only. -/
def e1 : MmioEntry := ⟨0xA010, 0xA020, true, false⟩

/-- A fresh state with the bytes `w` at 0x0100, IP there, the registers and bytes given, the two entries of V2, the device
bytes 0xAB and 0xCD to come, and two syscalls (V6). -/
def vec (w : InstrBytes) (regs : List (RegIdx × Word) := []) (bytes : List (Word × Byte) := []) : State :=
  { (State.reset.hostWrite { regWrites := (ipIdx, 0x0100) :: regs, memWrites := bytes }).placeInstr 0x0100 w with
    mmioTable := [e0, e1], numSyscalls := 2, hostAnswers := [{ byte := 0xAB }, { byte := 0xCD }] }

/-- What `f` reads in the state one step later, if there is one. -/
def after {α : Type} (s : State) (f : State → α) : Option α :=
  match step s with
  | .next t => some (f t)
  | .fault _ | .refused _ => none

/-- The fault of one step, if it ends in one. -/
def faultOf (s : State) : Option Fault :=
  match step s with
  | .fault f => some f
  | .next _ | .refused _ => none

/-! ## WellFormed: an ill-formed term for each check -/

theorem test_illFormed_regImm : Instr.wellFormed (.ldi 32 0) = false ∧ Instr.wellFormed (.sti 32 0) = false ∧
    Instr.wellFormed (.stib 255 0) = false ∧ Instr.wellFormed (.jr 32) = false := by decide

theorem test_illFormed_regReg : Instr.wellFormed (.ldr 32 0) = false ∧ Instr.wellFormed (.ldrb 0 32) = false ∧
    Instr.wellFormed (.str 32 31) = false ∧ Instr.wellFormed (.strb 31 32) = false := by decide

theorem test_illFormed_regs : Instr.wellFormed (.add 32 0 0) = false ∧ Instr.wellFormed (.shr 0 32 0) = false ∧
    Instr.wellFormed (.xor 0 0 32) = false := by decide

theorem test_wellFormed_boundary : Instr.wellFormed (.add 31 31 31) = true ∧ Instr.wellFormed (.ldi 31 0xFFFF) = true ∧
    Instr.wellFormed .sys = true := by decide

/-! ## Decode: a word of every row, written out bit by bit (R51 to R57) -/

theorem test_decode_nop : decodeTableWord 32 0b00000000111111111000000001111111 = some .nop := by decide
theorem test_decode_ldi : decodeTableWord 32 0b00000001000110011111111111111110 = some (.ldi 25 0xFFFE) := by decide
theorem test_decode_ldr : decodeTableWord 32 0b00000010000001000000001111111111 = some (.ldr 4 3) := by decide
theorem test_decode_ldrb : decodeTableWord 32 0b00000011000001000000001100000000 = some (.ldrb 4 3) := by decide
theorem test_decode_add : decodeTableWord 32 0b00000100000000100001111000000000 = some (.add 2 30 0) := by decide
theorem test_decode_sub : decodeTableWord 32 0b00000101000000100000000000000001 = some (.sub 2 0 1) := by decide
theorem test_decode_mul : decodeTableWord 32 0b00000110000000100000000000000001 = some (.mul 2 0 1) := by decide
theorem test_decode_div : decodeTableWord 32 0b00000111000000100000000000000001 = some (.div 2 0 1) := by decide
theorem test_decode_mod : decodeTableWord 32 0b00001000000000100000000000000001 = some (.mod 2 0 1) := by decide
theorem test_decode_and : decodeTableWord 32 0b00001001000000100000000000000001 = some (.and 2 0 1) := by decide
theorem test_decode_or : decodeTableWord 32 0b00001010000111110000000000000001 = some (.or 31 0 1) := by decide
theorem test_decode_xor : decodeTableWord 32 0b00001011000000100000000000000001 = some (.xor 2 0 1) := by decide
theorem test_decode_shl : decodeTableWord 32 0b00001100000000100000000000000001 = some (.shl 2 0 1) := by decide
theorem test_decode_shr : decodeTableWord 32 0b00001101000000100000000000000001 = some (.shr 2 0 1) := by decide
theorem test_decode_jmp : decodeTableWord 32 0b00001110111111110000001000000001 = some (.jmp 0x0201) := by decide
theorem test_decode_jz : decodeTableWord 32 0b00001111000000000000000000100000 = some (.jz 0x0020) := by decide
theorem test_decode_jr : decodeTableWord 32 0b00010000000111101111111111111111 = some (.jr 30) := by decide
theorem test_decode_sti : decodeTableWord 32 0b00010001000001001010000000010000 = some (.sti 4 0xA010) := by decide
theorem test_decode_stib : decodeTableWord 32 0b00010010000001001010000000000010 = some (.stib 4 0xA002) := by decide
theorem test_decode_str : decodeTableWord 32 0b00010011000001000000011000000000 = some (.str 4 6) := by decide
theorem test_decode_strb : decodeTableWord 32 0b00010100000001000000011000000000 = some (.strb 4 6) := by decide
theorem test_decode_sys : decodeTableWord 32 0b00010101101010101011101111001100 = some .sys := by decide

/-- R60, V1.7, V3.52, V4.12: the first invalid opcode, the last, and a bad byte in each register slot. -/
theorem test_decode_rejects : decode ⟨0x16, 0, 0, 0⟩ = .invalid ∧ decode ⟨0xFF, 0, 0, 0⟩ = .invalid ∧
    decode ⟨0x01, 0x20, 0, 1⟩ = .badReg ∧ decode ⟨0x02, 0x04, 0x20, 0⟩ = .badReg ∧
    decode ⟨0x04, 0x02, 0x00, 0x20⟩ = .badReg ∧ decode ⟨0x10, 0x40, 0, 0⟩ = .badReg := by decide

/-- R67's bytes, with zero in each unused byte. -/
theorem test_encode : encode (.jmp 0x0008) = ⟨0x0E, 0x00, 0x00, 0x08⟩ ∧ encode (.ldi 0 0x1234) = ⟨0x01, 0x00, 0x12, 0x34⟩ ∧
    encode (.jr 2) = ⟨0x10, 0x02, 0x00, 0x00⟩ ∧ encodeImage [.nop, .str 4 6] = [0, 0, 0, 0, 0x13, 4, 6, 0] := by decide

/-! ## One step of each instruction -/

/-- V1.2. -/
theorem test_nop : after (vec ⟨0x00, 0xFF, 0x80, 0x7F⟩) (fun t => (t.ip, t.icount)) = some (0x0104, 1) := by decide
/-- V1.4. -/
theorem test_ldi_keeps_z : after (vec ⟨0x01, 0x19, 0xFF, 0xFF⟩ [(flIdx, 1)]) (fun t => (t.reg 25, t.fl)) =
    some (0xFFFF, 1) := by decide
/-- V1.5 and V1.6. -/
theorem test_ldi_special : after (vec ⟨0x01, 0x1E, 0x02, 0x00⟩) State.ip = some 0x0200 ∧
    after (vec ⟨0x01, 0x1F, 0x00, 0x80⟩ [(flIdx, 1)]) State.fl = some 0x0080 := by decide
/-- V2.5. -/
theorem test_ldr_raw : after (vec ⟨0x02, 0x03, 0x03, 0x00⟩ [(3, 0x6000)] [(0x6000, 0xEF), (0x6001, 0xBE)])
    (fun t => (t.reg 3, t.fl)) = some (0xBEEF, 0) := by decide
/-- V2.9. -/
theorem test_ldr_device : after (vec ⟨0x02, 0x04, 0x03, 0x00⟩ [(3, 0xA010)]) (fun t => (t.reg 4, t.hostCalls)) =
    some (0xABCD, [.devRead e1 0xA010, .devRead e1 0xA011]) := by decide
/-- V2.4 and V2.7. -/
theorem test_ldrb_raw : after (vec ⟨0x03, 0x04, 0x03, 0x00⟩ [(3, 0x6002), (4, 0xFFFF)] [(0x6002, 0x80)])
    (fun t => t.reg 4) = some 0x0080 ∧
    after (vec ⟨0x03, 0x04, 0x03, 0x00⟩ [(3, 0xFFFF)] [(0xFFFF, 0x5A)]) (fun t => t.reg 4) = some 0x005A := by decide
/-- V2.10. -/
theorem test_ldrb_device : after (vec ⟨0x03, 0x04, 0x03, 0x00⟩ [(3, 0xA010)]) (fun t => (t.reg 4, t.hostCalls)) =
    some (0x00AB, [.devRead e1 0xA010]) := by decide
/-- V3.2. -/
theorem test_add_wraps : after (vec ⟨0x04, 2, 0, 1⟩ [(0, 0xFFFF), (1, 1)]) (fun t => (t.reg 2, t.fl)) = some (0, 1) := by
  decide
/-- V3.47 and V3.6. -/
theorem test_add_ip_and_flags : after (vec ⟨0x04, 2, 0x1E, 0⟩ [(0, 0x0010)]) (fun t => t.reg 2) = some 0x0114 ∧
    after (vec ⟨0x04, 2, 0, 1⟩ [(0, 1), (1, 1), (flIdx, 0x008F)]) State.fl = some 0x008E := by decide
/-- V3.8. -/
theorem test_sub_borrow : after (vec ⟨0x05, 2, 0, 1⟩ [(1, 1)]) (fun t => (t.reg 2, t.fl)) = some (0xFFFF, 0) := by decide
/-- V3.50. -/
theorem test_sub_into_flags : after (vec ⟨0x05, 0x1F, 0, 1⟩ [(0, 5), (1, 5), (flIdx, 0x0080)]) State.fl = some 1 := by
  decide
/-- V3.11. -/
theorem test_mul_truncates : after (vec ⟨0x06, 2, 0, 1⟩ [(0, 0x0100), (1, 0x0100)]) (fun t => (t.reg 2, t.fl)) =
    some (0, 1) := by decide
/-- V3.12. -/
theorem test_mul_low_half : after (vec ⟨0x06, 2, 0, 1⟩ [(0, 0xFFFF), (1, 0xFFFF)]) (fun t => t.reg 2) = some 1 := by
  decide
/-- V3.18. -/
theorem test_div_unsigned : after (vec ⟨0x07, 2, 0, 1⟩ [(0, 0xFFF9), (1, 2)]) (fun t => t.reg 2) = some 0x7FFC := by
  decide
/-- V3.19. -/
theorem test_div_zero : faultOf (vec ⟨0x07, 2, 0, 1⟩ [(0, 5)]) = some (.divideByZero 0x0100) := by decide
/-- V3.24. -/
theorem test_mod_unsigned : after (vec ⟨0x08, 2, 0, 1⟩ [(0, 0xFFFF), (1, 0x0010)]) (fun t => t.reg 2) = some 0x000F := by
  decide
/-- V3.25. -/
theorem test_mod_zero : faultOf (vec ⟨0x08, 2, 0, 1⟩ [(0, 5)]) = some (.divideByZero 0x0100) := by decide
/-- V3.26. -/
theorem test_and : after (vec ⟨0x09, 2, 0, 1⟩ [(0, 0xF0F0), (1, 0x0FF0)]) (fun t => t.reg 2) = some 0x00F0 := by decide
/-- V3.28. -/
theorem test_or : after (vec ⟨0x0A, 2, 0, 1⟩ [(0, 0xF0F0), (1, 0x0FF0)]) (fun t => t.reg 2) = some 0xFFF0 := by decide
/-- V3.49. -/
theorem test_or_into_flags : after (vec ⟨0x0A, 0x1F, 0, 1⟩ [(0, 0x0080), (1, 1)]) State.fl = some 0x0080 := by decide
/-- V3.30. -/
theorem test_xor : after (vec ⟨0x0B, 2, 0, 1⟩ [(0, 0xF0F0), (1, 0x0FF0)]) (fun t => t.reg 2) = some 0xFF00 := by decide
/-- V3.34. -/
theorem test_shl : after (vec ⟨0x0C, 2, 0, 1⟩ [(0, 1), (1, 15)]) (fun t => t.reg 2) = some 0x8000 := by decide
/-- V3.37. -/
theorem test_shl_by_16 : faultOf (vec ⟨0x0C, 2, 0, 1⟩ [(0, 1), (1, 16)]) = some .shiftRange := by decide
/-- V3.39. -/
theorem test_shr_logical : after (vec ⟨0x0D, 2, 0, 1⟩ [(0, 0x8000), (1, 1)]) (fun t => t.reg 2) = some 0x4000 := by decide
/-- V3.42. -/
theorem test_shr_whole_amount : faultOf (vec ⟨0x0D, 2, 0, 1⟩ [(0, 0x8000), (1, 0x0100)]) = some .shiftRange := by decide
/-- V4.3. -/
theorem test_jmp_unaligned : after (vec ⟨0x0E, 0, 0x02, 0x02⟩) State.ip = some 0x0202 := by decide
/-- V4.7. -/
theorem test_jz_taken : after (vec ⟨0x0F, 0, 0x02, 0⟩ [(flIdx, 0x008F)]) (fun t => (t.ip, t.fl)) =
    some (0x0200, 0x008E) := by decide
/-- V4.8. -/
theorem test_jz_not_taken : after (vec ⟨0x0F, 0, 0x02, 0⟩ [(flIdx, 0x000E)]) (fun t => (t.ip, t.fl)) =
    some (0x0104, 0x000E) := by decide
/-- V4.9 and V4.10. -/
theorem test_jr : after (vec ⟨0x10, 0, 0, 0⟩ [(0, 0x0300)]) State.ip = some 0x0300 ∧
    after (vec ⟨0x10, 0x1E, 0, 0⟩) State.ip = some 0x0104 := by decide
/-- V5.12. -/
theorem test_sti_raw : after (vec ⟨0x11, 0x1E, 0x60, 0⟩) (fun t => (t.byte 0x6000, t.byte 0x6001)) = some (4, 1) := by
  decide
/-- V5.2. -/
theorem test_sti_device : after (vec ⟨0x11, 4, 0xA0, 0⟩ [(4, 0x1234)]) (fun t => (t.hostCalls, t.byte 0xA000)) =
    some ([.devWrite e0 0xA000 0x12, .devWrite e0 0xA001 0x34], 0) := by decide
/-- V5.3. -/
theorem test_stib_raw : after (vec ⟨0x12, 4, 0x60, 0⟩ [(4, 0x1234)] [(0x6001, 0x99)])
    (fun t => (t.byte 0x6000, t.byte 0x6001)) = some (0x34, 0x99) := by decide
/-- V5.4. -/
theorem test_stib_device : after (vec ⟨0x12, 4, 0xA0, 2⟩ [(4, 0x1234)]) State.hostCalls =
    some [.devWrite e0 0xA002 0x34] := by decide
/-- V5.15. -/
theorem test_str_straddles_out : after (vec ⟨0x13, 4, 6, 0⟩ [(4, 0x1234), (6, 0xA00F)]) State.hostCalls =
    some [.devWrite e0 0xA00F 0x12, .devWrite e0 0xA010 0x34] := by decide
/-- V5.16. -/
theorem test_str_straddles_in : after (vec ⟨0x13, 4, 6, 0⟩ [(4, 0x1234), (6, 0x9FFF)])
    (fun t => (t.byte 0x9FFF, t.byte 0xA000, t.hostCalls)) = some (0x34, 0x12, []) := by decide
/-- V5.7. -/
theorem test_strb : after (vec ⟨0x14, 4, 6, 0⟩ [(4, 0x1234), (6, 0x6000)]) (fun t => (t.byte 0x6000, t.byte 0x6001)) =
    some (0x34, 0) := by decide
/-- V6.1, a handler that sets HALT: it is handed the state with IP past the `sys`. -/
theorem test_sys : after { vec ⟨0x15, 0, 0, 0⟩ [(0, 1)] with
      hostAnswers := [{ writes := { regWrites := [(flIdx, 0x0080)] } }] }
    (fun t => (t.fl, t.ip, t.hostCalls)) = some (0x0080, 0x0104, [.syscall 1]) := by decide
/-- V6.2 and V6.4. -/
theorem test_sys_bad_index : faultOf (vec ⟨0x15, 0, 0, 0⟩ [(0, 2)]) = some (.badSyscall 2 0x0100) ∧
    faultOf (vec ⟨0x15, 0, 0, 0⟩ [(0, 0xFFFF)]) = some (.badSyscall 0xFFFF 0x0100) := by decide

/-! ## The step, the traps and the host's side -/

/-- V7.1 and V7.5. -/
theorem test_trap_unaligned : after (vec ⟨0, 0xFF, 0, 0⟩ [(ipIdx, 0x0101)]) (fun t => (t.fl, t.ip, t.icount)) =
    some (0x0080, 0x0101, 0) := by decide
/-- V7.2. -/
theorem test_trap_invalid : after (vec ⟨0x16, 0, 0, 0⟩) (fun t => (t.fl, t.ip, t.icount)) = some (0x0080, 0x0100, 0) := by
  decide
/-- V1.7. -/
theorem test_bad_register : faultOf (vec ⟨0x01, 0x20, 0, 1⟩) = some .regIndexRange := by decide
/-- V5.9 and V2.6. -/
theorem test_past_top : faultOf (vec ⟨0x11, 4, 0xFF, 0xFF⟩) = some .accessPastTop ∧
    faultOf (vec ⟨0x02, 4, 3, 0⟩ [(3, 0xFFFF)]) = some .accessPastTop := by decide
/-- V7.7: `step` does not test HALT. -/
theorem test_step_ignores_halt : after (vec ⟨0x01, 0, 0, 7⟩ [(flIdx, 0x0080)]) (fun t => (t.reg 0, t.fl)) =
    some (7, 0x0080) := by decide
/-- V7.10 and V7.11. -/
theorem test_reset : (constructed 0).sp = 0 ∧ (hostReset (constructed 0)).sp = 0x4000 ∧
    (hostReset (vec ⟨0, 0, 0, 0⟩ [(0, 0x1111)])).reg 0 = 0x1111 := by decide
/-- The first step after reset runs the word that is placed for it (`ldi %a, 0x1234`). -/
theorem test_withFetchWord : after (State.reset.withFetchWord 32 0x01001234) (fun t => (t.reg 0, t.ip)) =
    some (0x1234, 4) := by decide

/-! ## The hypotheses of the statements can be met -/

/-- `addr` is at the given end of `e0`'s or `e1`'s range in every state of `vec`. -/
theorem firstMatch_e0 (w : InstrBytes) (regs bytes) (a : Word) (h : Covers e0 a) : FirstMatch (vec w regs bytes) a e0 :=
  ⟨[], [e1], rfl, h, by simp⟩

theorem firstMatch_e1 (w : InstrBytes) (regs bytes) (a : Word) (h : Covers e1 a) (h0 : ¬ Covers e0 a) :
    FirstMatch (vec w regs bytes) a e1 :=
  ⟨[e0], [], rfl, h, by simpa using h0⟩

theorem noMatch_of_outside (w : InstrBytes) (regs bytes) (a : Word) (h : ¬ Covers e0 a ∧ ¬ Covers e1 a) :
    NoMatch (vec w regs bytes) a := by
  intro e he
  have : e = e0 ∨ e = e1 := by simpa [vec] using he
  rcases this with rfl | rfl
  · exact h.1
  · exact h.2

theorem covers_boundaries : Covers e0 0xA000 ∧ Covers e0 0xA00F ∧ ¬ Covers e0 0xA010 ∧ Covers e1 0xA010 ∧
    Covers e1 0xA01F ∧ ¬ Covers e1 0xA020 ∧ ¬ Covers e0 0x9FFF ∧ ¬ Covers e1 0x9FFF ∧ ¬ Covers e0 0xFFFF ∧
    ¬ Covers e1 0xFFFF ∧ ¬ Covers e0 0xFFFE ∧ ¬ Covers e1 0xFFFE ∧ ¬ Covers e0 0x0100 ∧ ¬ Covers e1 0x0100 ∧
    ¬ Covers e0 0x6000 ∧ ¬ Covers e1 0x6000 ∧ ¬ Covers e0 0x6001 ∧ ¬ Covers e1 0x6001 := by
  unfold Covers; decide

theorem witness_DecodeOfEncodeIsTheInstruction : Instr.wellFormed (.add 31 0 31) = true := by decide

theorem witness_DecodeFollowsTheOpcodeMap : 0x15 < ((⟨0x16, 0, 0, 0⟩ : InstrBytes).b0).toNat := by decide

theorem witness_ReencodingClearsUnusedBytes : decode ⟨0x15, 0xAA, 0xBB, 0xCC⟩ = .instr .sys := by decide

theorem witness_StepIsOneFetchDecodeExecuteCycle :
    (vec ⟨0, 0, 0, 0⟩ [(ipIdx, 0x0103)]).ip.toNat % 4 ≠ 0 ∧
    (vec ⟨0x16, 0, 0, 0⟩).ip.toNat % 4 = 0 ∧ 0x15 < (vec ⟨0x16, 0, 0, 0⟩).fetch.b0.toNat ∧
    decode (vec ⟨0x04, 0, 0, 32⟩).fetch = .badReg ∧ decode (vec ⟨0x15, 0, 0, 0⟩).fetch = .instr .sys := by decide

theorem witness_UnalignedPointerTraps : (vec ⟨0, 0, 0, 0⟩ [(ipIdx, 0x0101)]).ip.toNat % 4 ≠ 0 := by decide

theorem witness_InvalidOpcodeTraps : (vec ⟨0x16, 0, 0, 0⟩).ip.toNat % 4 = 0 ∧
    0x16 ≤ ((vec ⟨0x16, 0, 0, 0⟩).byte (vec ⟨0x16, 0, 0, 0⟩).ip).toNat := by decide

theorem witness_TrappedCoreIsStable :
    ((vec ⟨0, 0, 0, 0⟩ [(ipIdx, 0x0102)]).aligned = false ∧ (after (vec ⟨0, 0, 0, 0⟩ [(ipIdx, 0x0102)]) id).isSome) ∧
    (decode (vec ⟨0xFF, 0, 0, 0⟩).fetch = .invalid ∧ (after (vec ⟨0xFF, 0, 0, 0⟩) id).isSome) := by decide

theorem witness_RegisterByteOver31Faults : (vec ⟨0x14, 31, 32, 0⟩).aligned = true ∧
    ((vec ⟨0x14, 31, 32, 0⟩).byte (vec ⟨0x14, 31, 32, 0⟩).ip).toNat ≤ 0x15 ∧
    (∃ b ∈ usedRegBytes (vec ⟨0x14, 31, 32, 0⟩).fetch, 31 < b.toNat) ∧ Instr.wellFormed (.strb 31 32) = false := by decide

/-- Each of the five causes is met, and the step faults so. -/
theorem witness_StepFaultsExactlyWhereTheSpecSays :
    faultOf (vec ⟨0x0D, 0, 0, 32⟩) = some .regIndexRange ∧ faultOf (vec ⟨0x08, 2, 0, 1⟩) = some (.divideByZero 0x0100) ∧
    faultOf (vec ⟨0x15, 0, 0, 0⟩ [(0, 2)]) = some (.badSyscall 2 0x0100) ∧
    faultOf (vec ⟨0x0D, 2, 0, 1⟩ [(1, 16)]) = some .shiftRange ∧
    faultOf (vec ⟨0x13, 2, 0, 1⟩ [(0, 0xFFFF)]) = some .accessPastTop := by decide

/-- At the wrap (V4.13). -/
theorem witness_FallThroughAdvancesByFour :
    (vec ⟨0, 0, 0, 0⟩ [(ipIdx, 0xFFFC)]).aligned = true ∧
    decode (vec ⟨0, 0, 0, 0⟩ [(ipIdx, 0xFFFC)]).fetch = .instr .nop ∧
    after (vec ⟨0, 0, 0, 0⟩ [(ipIdx, 0xFFFC)]) (fun t => (t.ip, t.hostCalls)) = some (0, []) ∧
    (Instr.op .nop).isJump = false ∧ Instr.destByte .nop ≠ some (regByte ipIdx) := by decide

theorem witness_CounterCountsDispatches :
    after (vec ⟨0x0E, 0, 0, 0⟩) (fun t => (t.icount, t.hostCalls)) = some (1, []) ∧
    after (vec ⟨0x16, 0, 0, 0⟩) (fun t => (t.icount, t.hostCalls)) = some (0, []) := by decide

/-- A store of a zero byte, which unlists an address. -/
theorem witness_StepKeepsMemoryCanonical :
    Inv (vec ⟨0x12, 0, 0x60, 0⟩ [] [(0x6000, 7)]) ∧
    after (vec ⟨0x12, 0, 0x60, 0⟩ [] [(0x6000, 7)]) State.mem = some [(0x0100, 0x12), (0x0102, 0x60)] := by decide

theorem witness_CanonicalMemoriesWithEqualBytesAreEqual :
    Memory.wf [(0, 1), (65535, 2)] ∧ Memory.wf (Memory.write (Memory.write [] 65535 2) 0 1) := by decide

/-- A step in which two callbacks run and write what they can reach. -/
theorem witness_StepKeepsTheHostTables :
    after { vec ⟨0x02, 4, 3, 0⟩ [(3, 0xA010)] with
        hostAnswers := [{ byte := 1, writes := { regWrites := [(5, 6)], setIcount := some 9 } }, { byte := 2 }] }
      (fun t => (t.reg 4, t.reg 5, t.icount, t.numSyscalls)) = some (0x0102, 6, 9, 2) := by decide

theorem witness_HostCallsGoThroughTheTables :
    after (vec ⟨0x13, 4, 6, 0⟩ [(6, 0xA000)]) (fun t => t.hostCalls.length) = some 2 := by decide

theorem witness_CounterAndHostAnswersAreInvisibleToPrograms :
    after (vec ⟨0x0F, 0, 2, 0⟩ [(flIdx, 1)]) (fun t => (t.ip, t.hostCalls)) = some (0x0200, []) := by decide

theorem witness_RegistersChangeOnlyByName : (spIdx : RegIdx).val < 30 ∧ (vec ⟨0x01, 29, 0x5F, 0xFE⟩).sp = 0x4000 ∧
    after (vec ⟨0x01, 29, 0x5F, 0xFE⟩) (fun t => (t.sp, t.hostCalls)) = some (0x5FFE, []) := by decide

theorem witness_MemoryChangesOnlyByStores : (vec ⟨0x11, 30, 0x60, 0⟩).byte 0x6001 = 0 ∧
    after (vec ⟨0x11, 30, 0x60, 0⟩) (fun t => (t.byte 0x6001, t.hostCalls)) = some (1, []) := by decide

theorem witness_OnlyAluAndJzWriteZ :
    (∃ p ∈ aluOps, p.2 0 1 = some 65535 ∧ p.2 5 5 = some 0) ∧
    after (vec ⟨0x0F, 0, 2, 0⟩ [(flIdx, 1)]) (fun t => (zFlag t.fl, t.hostCalls)) = some (false, []) ∧
    after (vec ⟨0x01, 0, 0, 0⟩ [(flIdx, 1)]) (fun t => (zFlag t.fl, t.hostCalls)) = some (true, []) := by
  refine ⟨⟨(.sub, fun a b => some (if b ≤ a then a - b else a + 65536 - b)), by simp [aluOps], by decide, by decide⟩, ?_⟩
  decide

theorem witness_NoInstructionWritesOtherFlagBits : Instr.destByte (.add 2 0 1) ≠ some (regByte flIdx) ∧
    after (vec ⟨0x04, 2, 0, 1⟩ [(flIdx, 0xFFFF)]) (fun t => (t.fl, t.hostCalls)) = some (0xFFFF, []) := by decide

/-- HALT set by a trap, set by an instruction, cleared by an instruction. -/
theorem witness_HaltChangesOnlyByTrapsAndRegister31 :
    after (vec ⟨0xFF, 0, 0, 0⟩) (fun t => (haltFlag t.fl, t.hostCalls)) = some (true, []) ∧
    after (vec ⟨0x01, 31, 0, 0x80⟩) (fun t => (haltFlag t.fl, t.hostCalls)) = some (true, []) ∧
    after (vec ⟨0x01, 31, 0, 0⟩ [(flIdx, 0x0080)]) (fun t => (haltFlag t.fl, t.hostCalls)) = some (false, []) := by decide

theorem witness_NopOnlyAdvances : (vec ⟨0, 0xFF, 0, 0⟩).aligned = true ∧
    (vec ⟨0, 0xFF, 0, 0⟩).byte (vec ⟨0, 0xFF, 0, 0⟩).ip = 0 := by decide

theorem witness_LdiWritesTheImmediate : 31 < (32 : Byte).toNat := by decide

/-- The five cases of `ldr`: a byte out of range, 0xFFFF, raw up to 0xFFFE, a device that reads, one that does not. -/
theorem witness_LdrLoadsAWord :
    ¬ ((31 : Byte).toNat ≤ 31 ∧ (32 : Byte).toNat ≤ 31) ∧
    (vec ⟨0, 0, 0, 0⟩ [(3, 0xFFFF)]).reg 3 = 0xFFFF ∧
    ((vec ⟨0, 0, 0, 0⟩ [(3, 0xFFFE)]).reg 3 = 0xFFFE ∧ NoMatch (vec ⟨0, 0, 0, 0⟩ [(3, 0xFFFE)]) 0xFFFE) ∧
    ((vec ⟨0, 0, 0, 0⟩ [(3, 0xA01F)]).reg 3 = 0xA01F ∧ FirstMatch (vec ⟨0, 0, 0, 0⟩ [(3, 0xA01F)]) 0xA01F e1 ∧
      e1.hasRead = true) ∧
    ((vec ⟨0, 0, 0, 0⟩ [(3, 0xA000)]).reg 3 = 0xA000 ∧ FirstMatch (vec ⟨0, 0, 0, 0⟩ [(3, 0xA000)]) 0xA000 e0 ∧
      e0.hasRead = false) := by
  have h := covers_boundaries
  refine ⟨by decide, by decide, ⟨by decide, noMatch_of_outside _ _ _ _ ?_⟩, ⟨by decide, firstMatch_e1 _ _ _ _ ?_ ?_, rfl⟩,
    ⟨by decide, firstMatch_e0 _ _ _ _ ?_, rfl⟩⟩
  · exact ⟨by unfold Covers; decide, by unfold Covers; decide⟩
  · unfold Covers; decide
  · unfold Covers; decide
  · exact h.1

/-- The cases of `ldrb` at their boundaries: 0xFFFF raw, the first and last address of a device. -/
theorem witness_LdrbLoadsAByte :
    ¬ ((32 : Byte).toNat ≤ 31 ∧ (0 : Byte).toNat ≤ 31) ∧
    NoMatch (vec ⟨0, 0, 0, 0⟩ [(3, 0xFFFF)]) ((vec ⟨0, 0, 0, 0⟩ [(3, 0xFFFF)]).reg 3) ∧
    FirstMatch (vec ⟨0, 0, 0, 0⟩ [(3, 0xA010)]) ((vec ⟨0, 0, 0, 0⟩ [(3, 0xA010)]).reg 3) e1 ∧
    FirstMatch (vec ⟨0, 0, 0, 0⟩ [(3, 0xA00F)]) ((vec ⟨0, 0, 0, 0⟩ [(3, 0xA00F)]).reg 3) e0 := by
  refine ⟨by decide, noMatch_of_outside _ _ _ _ ⟨?_, ?_⟩, firstMatch_e1 _ _ _ _ ?_ ?_, firstMatch_e0 _ _ _ _ ?_⟩ <;>
    unfold Covers <;> decide

/-- Every destination but the flags is allowed, IP among them. -/
theorem witness_AddSubMulTruncateTo16Bits : (ipIdx : RegIdx) ≠ flIdx ∧
    ¬ ((0 : Byte).toNat ≤ 31 ∧ (0 : Byte).toNat ≤ 31 ∧ (32 : Byte).toNat ≤ 31) := by decide

theorem witness_BitwiseOperationsSetZ : (0 : RegIdx) ≠ flIdx ∧
    ¬ ((0 : Byte).toNat ≤ 31 ∧ (32 : Byte).toNat ≤ 31 ∧ (0 : Byte).toNat ≤ 31) := by decide

theorem witness_DivModAreUnsignedAndFatalOnZero : ((vec ⟨0, 0, 0, 0⟩ [(1, 1)]).reg 1).toNat ≠ 0 ∧
    ((vec ⟨0, 0, 0, 0⟩).reg 1).toNat = 0 := by decide

theorem witness_ShiftsByUpTo15 : ((vec ⟨0, 0, 0, 0⟩ [(1, 15)]).reg 1).toNat < 16 ∧
    ¬ ((vec ⟨0, 0, 0, 0⟩ [(1, 16)]).reg 1).toNat < 16 := by decide

/-- The result 0 and a result with bit 0 set, into the flags. -/
theorem witness_AluIntoTheFlagsRegister : ∃ p ∈ aluOps,
    p.2 ((vec ⟨0, 0, 0, 0⟩).reg 0).toNat ((vec ⟨0, 0, 0, 0⟩).reg 0).toNat = some 0 ∧
    p.2 ((vec ⟨0, 0, 0, 0⟩ [(0, 0x0081)]).reg 0).toNat ((vec ⟨0, 0, 0, 0⟩ [(0, 0x0081)]).reg 1).toNat = some 0x0081 :=
  ⟨(.or, fun a b => some (a ||| b)), by simp [aluOps], by decide, by decide⟩

theorem witness_JzJumpsOnZAndClearsIt : (vec ⟨0, 0, 0, 0⟩ [(flIdx, 1)]).fl.getLsbD 0 = true ∧
    (vec ⟨0, 0, 0, 0⟩ [(flIdx, 0xFFFE)]).fl.getLsbD 0 = false := by decide

theorem witness_JrWritesTheRegister : 31 < (32 : Byte).toNat := by decide

/-- The four cases of a 16-bit store: 0xFFFF, raw up to 0xFFFE, a device that writes, one that does not. -/
theorem witness_WordStoresKeepTheByteOrderAsymmetry :
    (vec ⟨0, 0, 0, 0⟩ [(6, 0xFFFF)]).reg 6 = 0xFFFF ∧
    ((0xFFFE : Word) ≠ 0xFFFF ∧ NoMatch (vec ⟨0, 0, 0, 0⟩) 0xFFFE) ∧
    ((0xA00F : Word) ≠ 0xFFFF ∧ FirstMatch (vec ⟨0, 0, 0, 0⟩) 0xA00F e0 ∧ e0.hasWrite = true) ∧
    (FirstMatch (vec ⟨0, 0, 0, 0⟩) 0xA010 e1 ∧ e1.hasWrite = false) := by
  have h := covers_boundaries
  refine ⟨by decide, ⟨by decide, noMatch_of_outside _ _ _ _ ⟨?_, ?_⟩⟩, ⟨by decide, firstMatch_e0 _ _ _ _ h.2.1, rfl⟩,
    firstMatch_e1 _ _ _ _ h.2.2.2.1 h.2.2.1, rfl⟩ <;> unfold Covers <;> decide

/-- The three cases of an 8-bit store, 0xFFFF raw among them. -/
theorem witness_ByteStoresWriteTheLowByte :
    NoMatch (vec ⟨0, 0, 0, 0⟩) 0xFFFF ∧ (FirstMatch (vec ⟨0, 0, 0, 0⟩) 0xA000 e0 ∧ e0.hasWrite = true) ∧
    (FirstMatch (vec ⟨0, 0, 0, 0⟩) 0xA01F e1 ∧ e1.hasWrite = false) := by
  have h := covers_boundaries
  refine ⟨noMatch_of_outside _ _ _ _ ⟨?_, ?_⟩, ⟨firstMatch_e0 _ _ _ _ h.1, rfl⟩, firstMatch_e1 _ _ _ _ h.2.2.2.2.1 ?_, rfl⟩ <;>
    unfold Covers <;> decide

/-- The last registered number, with a handler that writes one register twice, another before its last write, a byte
twice, and the counter; and one that writes nothing. -/
theorem witness_SysCallsTheHandler :
    let s : State := { vec ⟨0x15, 0, 0, 0⟩ [(0, 1)] with
      hostAnswers := [{ writes := { regWrites := [(3, 9), (1, 2), (3, 4)], memWrites := [(0x6000, 5), (0x6000, 6)],
                                    setIcount := some 7 } }] }
    (s.reg r0).toNat < s.numSyscalls ∧
    (s.hostAnswer (.syscall (s.reg r0))).writes.regWrites = [(3, 9)] ++ (1, 2) :: [(3, 4)] ∧
    (s.hostAnswer (.syscall (s.reg r0))).writes.regWrites = [(3, 9), (1, 2)] ++ (3, 4) :: [] ∧
    (s.hostAnswer (.syscall (s.reg r0))).writes.memWrites = [(0x6000, 5)] ++ (0x6000, 6) :: [] ∧
    after s (fun t => (t.reg 1, t.reg 3, t.byte 0x6000, t.icount)) =
      some (2, 4, 6, 7) ∧
    ((vec ⟨0x15, 0, 0, 0⟩ [(0, 1)]).hostAnswer (.syscall 1)).writes = {} := by decide

theorem witness_SysCallsTheHandler_lastListed : (∀ u : Word, ((1 : RegIdx), u) ∉ [((3 : RegIdx), (4 : Word))]) ∧
    (∀ u : Word, ((3 : RegIdx), u) ∉ ([] : List (RegIdx × Word))) := by simp

theorem witness_SysWithABadIndexIsFatal : (vec ⟨0x15, 0, 0, 0⟩ [(0, 2)]).aligned = true ∧
    decode (vec ⟨0x15, 0, 0, 0⟩ [(0, 2)]).fetch = .instr .sys ∧
    (vec ⟨0x15, 0, 0, 0⟩ [(0, 2)]).numSyscalls ≤ ((vec ⟨0x15, 0, 0, 0⟩ [(0, 2)]).reg r0).toNat := by decide

/-- The end of a range is exclusive, and the earlier of two overlapping entries is the match. -/
theorem witness_MmioMatchIsTheFirstRegistered :
    (vec ⟨0, 0, 0, 0⟩).mmioMatch 0xA00F = some e0 ∧ (vec ⟨0, 0, 0, 0⟩).mmioMatch 0xA010 = some e1 ∧
    (vec ⟨0, 0, 0, 0⟩).mmioMatch 0xA020 = none ∧
    State.mmioMatch { vec ⟨0, 0, 0, 0⟩ with mmioTable := [e1, ⟨0, 0x10000, true, true⟩] } 0xA010 = some e1 ∧
    State.mmioMatch { vec ⟨0, 0, 0, 0⟩ with mmioTable := [e1, ⟨0, 0x10000, true, true⟩] } 0xFFFF =
      some ⟨0, 0x10000, true, true⟩ := by decide

/-- S7: a load from a write-only device. -/
theorem witness_MissingCallbackIsSilent :
    let s := vec ⟨0x02, 5, 6, 0⟩ [(5, 0x7777), (6, 0xA004)]
    s.aligned = true ∧ decode s.fetch = .instr (.ldr (regByte 5) (regByte 6)) ∧
    Silent s.dispatched (.ldr (regByte 5) (regByte 6)) := by
  refine ⟨by decide, by decide, .inl ⟨5, 6, e0, .inr ⟨rfl, by decide⟩, ⟨[], [e1], rfl, ?_, by simp⟩, rfl⟩⟩
  unfold Covers; decide

/-- The stores to a read-only device. -/
theorem witness_MissingCallbackIsSilent_stores :
    Silent (vec ⟨0, 0, 0, 0⟩ [(6, 0xA010)]) (.strb (regByte 5) (regByte 6)) ∧
    Silent (vec ⟨0, 0, 0, 0⟩) (.sti (regByte 5) 0xA01F) := by
  have h := covers_boundaries
  refine ⟨.inr (.inl ⟨5, 6, e1, .inl rfl, firstMatch_e1 _ _ _ _ h.2.2.2.1 h.2.2.1, rfl⟩),
    .inr (.inr ⟨5, 0xA01F, e1, .inr ⟨rfl, by decide⟩, ⟨[e0], [], rfl, h.2.2.2.2.1, ?_⟩, rfl⟩)⟩
  simp only [List.mem_singleton, forall_eq]
  unfold Covers; decide

theorem witness_StoreThenLoadGivesTheValue :
    (vec ⟨0, 0, 0, 0⟩ [(6, 0xFFFE), (7, 0xFFFF)]).reg 6 ≠ 0xFFFF ∧
    NoMatch (vec ⟨0, 0, 0, 0⟩ [(6, 0xFFFE), (7, 0xFFFF)]) ((vec ⟨0, 0, 0, 0⟩ [(6, 0xFFFE), (7, 0xFFFF)]).reg 6) ∧
    (vec ⟨0, 0, 0, 0⟩ [(6, 0xFFFE), (7, 0xFFFF)]).reg 7 = (vec ⟨0, 0, 0, 0⟩ [(6, 0xFFFE), (7, 0xFFFF)]).reg 6 + 1 ∧
    NoMatch (vec ⟨0, 0, 0, 0⟩ [(6, 0xFFFE), (7, 0xFFFF)]) ((vec ⟨0, 0, 0, 0⟩ [(6, 0xFFFE), (7, 0xFFFF)]).reg 7) := by
  refine ⟨by decide, noMatch_of_outside _ _ _ _ ⟨?_, ?_⟩, by decide, noMatch_of_outside _ _ _ _ ⟨?_, ?_⟩⟩ <;>
    unfold Covers <;> decide

/-- A raw store whose second byte falls on IP, one on IP's last byte, and stores to a device that has the callback, its
answers writing nothing, and to one that has not. -/
theorem witness_StoresAreSeenByTheNextFetch :
    NoMatch (vec ⟨0, 0, 0, 0⟩) 0x00FF ∧ NoMatch (vec ⟨0, 0, 0, 0⟩) 0x0103 ∧
    ((0xA00F : Word) ≠ 0xFFFF ∧ FirstMatch (vec ⟨0, 0, 0, 0⟩ [(6, 0xA00F)]) 0xA00F e0 ∧
      (vec ⟨0, 0, 0, 0⟩ [(6, 0xA00F)]).reg 6 = 0xA00F ∧
      (wordBytes 0x1234).length ≤ (vec ⟨0, 0, 0, 0⟩).hostAnswers.length ∧
      ∀ a ∈ (vec ⟨0, 0, 0, 0⟩).hostAnswers.take (wordBytes 0x1234).length, a.writes = {}) ∧
    (FirstMatch (vec ⟨0, 0, 0, 0⟩) 0xA010 e1 ∧ e1.hasWrite = false) := by
  have h := covers_boundaries
  refine ⟨noMatch_of_outside _ _ _ _ ⟨?_, ?_⟩, noMatch_of_outside _ _ _ _ ⟨?_, ?_⟩,
    ⟨by decide, firstMatch_e0 _ _ _ _ h.2.1, by decide, by decide, by decide⟩,
    firstMatch_e1 _ _ _ _ h.2.2.2.1 h.2.2.1, rfl⟩ <;> unfold Covers <;> decide

/-- A raw 16-bit store falls low byte first on the two upper bytes of an instruction (R41). -/
theorem test_overlaid : overlaid (vec ⟨1, 2, 3, 4⟩) 0x0102 (wordBytes 0x0A0B) 0x0101 = 2 ∧
    overlaid (vec ⟨1, 2, 3, 4⟩) 0x0102 (wordBytes 0x0A0B) 0x0102 = 0x0B ∧
    overlaid (vec ⟨1, 2, 3, 4⟩) 0x0102 (wordBytes 0x0A0B) 0x0103 = 0x0A := by decide

/-- An image one byte too long, one that ends one byte past the top, and one that ends at the top. -/
theorem witness_LoadCopiesTheImage :
    65536 < (List.replicate 65537 (0 : Byte)).length ∧
    ((List.replicate 65536 (0 : Byte)).length ≤ 65536 ∧
      65536 < (1 : Word).toNat + (List.replicate 65536 (0 : Byte)).length) ∧
    (0xFFFF : Word).toNat + ([7] : List Byte).length ≤ 65536 := by
  simp only [List.length_replicate]; decide

theorem witness_BootGivesTheLaunchPremises : ∃ s, boot 0 [] [0x01, 0x1F, 0x00, 0x80] = .ok s :=
  ⟨_, by simp [boot, construct, registerAll, loadImage, Config.memSize, Config.codeOrigin, Except.bind, Except.map]; rfl⟩

/-- A run that a trap ends, and one that finds the flag set. -/
theorem witness_RunStopsAtTheHaltFlag :
    haltFlag (vec ⟨0, 0, 0, 0⟩ [(flIdx, 0x0080)]).fl = true ∧ (vec ⟨0, 0, 0, 0⟩ [(ipIdx, 0x0101)]).aligned = false ∧
    run 1 (vec ⟨0xFF, 0, 0, 0⟩) = .halted (takeTrap .invalidOpcode (vec ⟨0xFF, 0, 0, 0⟩)) := by decide

theorem witness_LdiToFlagsEndsTheProgram : haltFlag (vec ⟨0x01, 0x1F, 0, 0x80⟩).fl = false ∧
    (vec ⟨0x01, 0x1F, 0, 0x80⟩).aligned = true ∧ (vec ⟨0x01, 0x1F, 0, 0x80⟩).fetch = ⟨0x01, 0x1F, 0x00, 0x80⟩ := by decide

end Sys2Proof.Tests
end

section
/-! O17. Which callbacks an instruction makes: at most two, each one the tables allow, and none unless the instruction is
a load, a store or `sys`. The data accesses and `sys` are read for their calls once each; the step's claim is put
together from them. -/

namespace Sys2Proof.Machine

open Sys2Proof.Spec

/-- Between `s` and `t` at most two callbacks were made, each allowed by the tables of `s`. -/
def CallsMade (s t : State) : Prop :=
  ∃ cs, t.hostCalls = s.hostCalls ++ cs ∧ cs.length ≤ 2 ∧ ∀ c ∈ cs, CallAllowed s c

section CallsMade

variable {s t : State}

theorem CallsMade.of_noHostCall (h : NoHostCall s t) : CallsMade s t :=
  ⟨[], by simpa [NoHostCall] using h, by simp, by simp⟩

theorem CallsMade.one {c : HostCall} (hc : CallAllowed s c) (h : t.hostCalls = s.hostCalls ++ [c]) :
    CallsMade s t :=
  ⟨[c], h, by simp, by simpa using hc⟩

theorem CallsMade.two {c d : HostCall} (hc : CallAllowed s c) (hd : CallAllowed s d)
    (h : t.hostCalls = s.hostCalls ++ [c] ++ [d]) : CallsMade s t :=
  ⟨[c, d], by simpa using h, by simp, by simpa using ⟨hc, hd⟩⟩

/-- What a load does with the value it read makes no callback. -/
theorem CallsMade.loadInto {r : Option Word × State} (h : CallsMade s r.2) (d : RegIdx) :
    CallsMade s (loadInto d r) := by
  simpa only [CallsMade, loadInto_hostCalls] using h

end CallsMade

/-- The advance of R72 changes neither table, so it allows the same callbacks. -/
theorem callAllowed_dispatched (s : State) (c : HostCall) : CallAllowed s.dispatched c ↔ CallAllowed s c := by
  cases c <;> rfl

theorem mem_mmioTable_of_mmioMatch {s : State} {addr : Word} {e : MmioEntry} (h : s.mmioMatch addr = some e) :
    e ∈ s.mmioTable :=
  List.mem_of_find?_eq_some h

theorem memRead8_callsMade (addr : Word) (s : State) : CallsMade s (memRead8 addr s).2 := by
  unfold memRead8
  split
  · exact .of_noHostCall rfl
  · next e he =>
    split
    · next hr => exact .one (c := .devRead e addr) ⟨mem_mmioTable_of_mmioMatch he, hr⟩ rfl
    · exact .of_noHostCall rfl

theorem memRead16_callsMade {addr : Word} {s : State} {r : Option Word × State}
    (h : memRead16 addr s = .ok r) : CallsMade s r.2 := by
  unfold memRead16 at h
  split at h
  · cases h
  · split at h
    · cases h; exact .of_noHostCall rfl
    · next e he =>
      have hm := mem_mmioTable_of_mmioMatch he
      split at h
      · next hr =>
        cases h
        exact .two (c := .devRead e addr) (d := .devRead e (addr + 1)) ⟨hm, hr⟩ ⟨hm, hr⟩ rfl
      · cases h; exact .of_noHostCall rfl

theorem memWrite8_callsMade (addr v : Word) (s : State) : CallsMade s (memWrite8 addr v s) := by
  unfold memWrite8
  split
  · exact .of_noHostCall rfl
  · next e he =>
    split
    · next hw => exact .one (c := .devWrite e addr (lowByte v)) ⟨mem_mmioTable_of_mmioMatch he, hw⟩ rfl
    · exact .of_noHostCall rfl

theorem memWrite16_callsMade {addr v : Word} {s t : State} (h : memWrite16 addr v s = .ok t) :
    CallsMade s t := by
  unfold memWrite16 at h
  split at h
  · cases h
  · split at h
    · cases h; exact .of_noHostCall rfl
    · next e he =>
      have hm := mem_mmioTable_of_mmioMatch he
      split at h
      · next hw =>
        cases h
        exact .two (c := .devWrite e addr (highByte v)) (d := .devWrite e (addr + 1) (lowByte v))
          ⟨hm, hw⟩ ⟨hm, hw⟩ rfl
      · cases h; exact .of_noHostCall rfl

theorem execSys_callsMade {s t : State} (h : execSys s = .next t) : CallsMade s t := by
  unfold execSys at h
  split at h
  · next hn => cases h; exact .one (c := .syscall (s.reg r0)) hn rfl
  · cases h

/-- The ten operations share the body of R82. -/
theorem exec_eq_aluBody_of_isAlu {i : Instr} (hi : i.op.isAlu = true) (s : State) :
    ∃ op rd ra rb, exec i s = aluBody op rd ra rb s := by
  cases i with
  | add => exact ⟨fun a b => .ok (a + b), _, _, _, rfl⟩
  | sub => exact ⟨fun a b => .ok (a - b), _, _, _, rfl⟩
  | mul => exact ⟨fun a b => .ok (a * b), _, _, _, rfl⟩
  | and => exact ⟨fun a b => .ok (a &&& b), _, _, _, rfl⟩
  | or => exact ⟨fun a b => .ok (a ||| b), _, _, _, rfl⟩
  | xor => exact ⟨fun a b => .ok (a ^^^ b), _, _, _, rfl⟩
  | div | mod | shl | shr => exact ⟨_, _, _, _, rfl⟩
  | nop | ldi | ldr | ldrb | jmp | jz | jr | sti | stib | str | strb | sys => cases hi

/-- Only the loads, the stores and `sys` reach the host (R4, R30). -/
theorem exec_noHostCall {i : Instr} {s t : State} (hi : i.op.reachesHost = false) (h : exec i s = .next t) :
    NoHostCall s t := by
  by_cases ha : i.op.isAlu = true
  · obtain ⟨op, rd, ra, rb, he⟩ := exec_eq_aluBody_of_isAlu ha s
    rw [he] at h
    obtain ⟨d, a, b, r, -, -, -, -, rfl⟩ := aluBody_eq_next h
    exact putResult_hostCalls s d r
  cases i with
  | nop | jmp => cases h; rfl
  | ldi =>
    rw [exec_ldi, execLdi] at h
    obtain ⟨_, -, h⟩ := withReg_eq_next h
    cases h; rfl
  | jr =>
    rw [exec_jr, execJr] at h
    obtain ⟨_, -, h⟩ := withReg_eq_next h
    cases h; rfl
  | add | sub | mul | div | mod | and | or | xor | shl | shr => exact absurd rfl ha
  | jz =>
    rw [exec_jz, execJz] at h
    split at h <;> cases h <;> rfl
  | ldr | ldrb | sti | stib | str | strb | sys => cases hi

/-- Every instruction makes at most two callbacks, and only those the tables allow. -/
theorem exec_callsMade {i : Instr} {s t : State} (h : exec i s = .next t) : CallsMade s t := by
  by_cases hi : i.op.reachesHost = false
  · exact .of_noHostCall (exec_noHostCall hi h)
  cases i with
  | ldr rd ra =>
    rw [exec_ldr, execLdr] at h
    obtain ⟨d, -, h⟩ := withReg_eq_next h
    obtain ⟨a, -, h⟩ := withReg_eq_next h
    rw [resultOf_eq_next] at h
    cases hr : memRead16 (s.reg a) s with
    | error f => rw [hr] at h; cases h
    | ok r => rw [hr] at h; cases h; exact (memRead16_callsMade hr).loadInto d
  | ldrb rd ra =>
    rw [exec_ldrb, execLdrb] at h
    obtain ⟨d, -, h⟩ := withReg_eq_next h
    obtain ⟨a, -, h⟩ := withReg_eq_next h
    cases h; exact (memRead8_callsMade _ s).loadInto d
  | sti rs imm =>
    rw [exec_sti, execSti] at h
    obtain ⟨_, -, h⟩ := withReg_eq_next h
    exact memWrite16_callsMade (resultOf_eq_next.mp h)
  | stib rs imm =>
    rw [exec_stib, execStib] at h
    obtain ⟨_, -, h⟩ := withReg_eq_next h
    cases h; exact memWrite8_callsMade _ _ s
  | str rs ra =>
    rw [exec_str, execStr] at h
    obtain ⟨_, -, h⟩ := withReg_eq_next h
    obtain ⟨_, -, h⟩ := withReg_eq_next h
    exact memWrite16_callsMade (resultOf_eq_next.mp h)
  | strb rs ra =>
    rw [exec_strb, execStrb] at h
    obtain ⟨_, -, h⟩ := withReg_eq_next h
    obtain ⟨_, -, h⟩ := withReg_eq_next h
    cases h; exact memWrite8_callsMade _ _ s
  | sys => exact execSys_callsMade h
  | nop | ldi | jmp | jz | jr | add | sub | mul | div | mod | and | or | xor | shl | shr => exact absurd rfl hi

/-- Settles O17: a trap makes no callback, and the body of an instruction makes those of `exec_callsMade`, none when it
does not reach the host. -/
theorem hostCallsGoThroughTheTables : Obligations.HostCallsGoThroughTheTables := by
  intro s t h
  rcases step_eq_next h with ⟨-, rfl⟩ | ⟨-, -, rfl⟩ | ⟨i, -, hi, hx⟩
  · exact ⟨[], by simp⟩
  · exact ⟨[], by simp⟩
  · obtain ⟨cs, hcs, hlen, hall⟩ := exec_callsMade hx
    refine ⟨cs, hcs, hlen, fun c hc => (callAllowed_dispatched s c).mp (hall c hc), fun hne => ⟨i, hi, ?_⟩⟩
    by_contra hno
    have hq : NoHostCall s.dispatched t := exec_noHostCall (by simpa using hno) hx
    rw [NoHostCall, hcs] at hq
    exact hne (List.append_right_eq_self.mp hq)

end Sys2Proof.Machine
end


section
/-! O13 and O16. Every next state of a step is built from writes of registers, writes of raw bytes, callbacks and the
advance, so what these four keep every step keeps. -/

namespace Sys2Proof.Machine

/-- A property that the primitive updates keep holds of whatever is built from them. -/
theorem Built.preserves {P : State → Prop} {s t : State} (hreg : ∀ u i v, P u → P (u.setReg i v))
    (hbyte : ∀ u a b, P u → P (u.setByte a b)) (hcall : ∀ u c, P u → P (callHost c u).2) (h : Built s t)
    (hs : P s) : P t := by
  induction h with
  | refl => exact hs
  | reg _ i v ih => exact hreg _ i v ih
  | byte _ a b ih => exact hbyte _ a b ih
  | call _ c ih => exact hcall _ c ih

/-- A property that the primitive updates and the advance keep is kept by every step. -/
theorem step_preserves {P : State → Prop} {s t : State} (hreg : ∀ u i v, P u → P (u.setReg i v))
    (hbyte : ∀ u a b, P u → P (u.setByte a b)) (hcall : ∀ u c, P u → P (callHost c u).2)
    (hdisp : ∀ u, P u → P u.dispatched) (h : step s = .next t) (hs : P s) : P t := by
  rcases step_eq_next h with ⟨-, rfl⟩ | ⟨-, -, rfl⟩ | ⟨i, -, -, hx⟩
  · exact hreg s _ _ hs
  · exact hreg s _ _ hs
  · exact (exec_built hx).preserves hreg hbyte hcall (hdisp s hs)

/-- Settles O13: a raw write and the host's writes stay below 65,536 and list no zero byte; the other updates leave
memory alone. -/
theorem stepKeepsMemoryCanonical : Obligations.StepKeepsMemoryCanonical := by
  intro s t hs h
  refine step_preserves (P := Inv) (fun _ _ _ hu => hu) (fun u a b hu => ?_) (fun u c hu => ?_) (fun _ hu => hu) h hs
  · exact Memory.wf_write hu a.isLt b
  · exact Memory.wf_applyMemWrites _ hu

/-- Settles O16: no primitive update touches a table, a callback included. -/
theorem stepKeepsTheHostTables : Obligations.StepKeepsTheHostTables := fun s _ h =>
  step_preserves (P := fun u => u.mmioTable = s.mmioTable ∧ u.numSyscalls = s.numSyscalls)
    (fun _ _ _ hu => hu) (fun _ _ _ hu => hu) (fun _ _ hu => hu) (fun _ hu => hu) h ⟨rfl, rfl⟩

end Sys2Proof.Machine
end

section
/-! O15. In canonical form the listed pairs are exactly the addresses that do not read as unlisted, with what they read;
and a strictly rising list is determined by its members. -/

namespace Sys2Proof.Machine

theorem Memory.mem_iff_read {m : Memory} (h : Memory.wf m) (a : Nat) (v : Byte) :
    (a, v) ∈ m ↔ v ≠ Memory.unlisted ∧ Memory.read m a = v := by
  induction m with
  | nil => simpa using fun hv => Ne.symm hv
  | cons c rest ih =>
    obtain ⟨hp, hb⟩ := h
    obtain ⟨hc, hrest⟩ := List.pairwise_cons.mp hp
    have ih := ih ⟨hrest, fun d hd => hb d (by simp [hd])⟩
    rw [Memory.read_cons, List.mem_cons]
    split
    · next hca =>
      have hn : (a, v) ∉ rest := fun hm => absurd (hc _ hm) (by simp [hca])
      have hcv : c.2 ≠ Memory.unlisted := (hb c (by simp)).2
      constructor
      · rintro (rfl | hm)
        · exact ⟨hcv, rfl⟩
        · exact absurd hm hn
      · rintro ⟨-, rfl⟩
        exact .inl (by rw [← hca])
    · next hca =>
      rw [← ih, or_iff_right]
      rintro rfl
      exact hca rfl

/-- Settles O15: the two lists rise strictly and, their reads being equal, have the same members. -/
theorem canonicalMemoriesWithEqualBytesAreEqual : Obligations.CanonicalMemoriesWithEqualBytesAreEqual := by
  intro m n hm hn h
  have : Std.Irrefl fun c d : Host.Cell => c.1 < d.1 := ⟨fun c => Nat.lt_irrefl c.1⟩
  have : Std.Antisymm fun c d : Host.Cell => c.1 < d.1 := ⟨fun _ _ h1 h2 => absurd h1 (Nat.lt_asymm h2)⟩
  refine hm.1.eq_of_mem_iff hn.1 fun ⟨a, v⟩ => ?_
  rw [Memory.mem_iff_read hm, Memory.mem_iff_read hn, h a]

end Sys2Proof.Machine
end

section
/-! O19, O22 and O23. What an instruction that makes no callback leaves alone, read off `Quiet`. -/

namespace Sys2Proof.Machine

@[simp] theorem reg_setRawWord (s : State) (a v : Word) (j : RegIdx) : (s.setRawWord a v).reg j = s.reg j := rfl

@[simp] theorem fl_setRawWord (s : State) (a v : Word) : (s.setRawWord a v).fl = s.fl := rfl

namespace Quiet

variable {i : Instr} {s t : State}

/-- A register that is neither IP nor the flags changes only as the destination. -/
theorem reg_eq (h : Quiet i s t) {j : RegIdx} (hip : ipIdx ≠ j) (hfl : flIdx ≠ j)
    (hd : i.destByte ≠ some (regByte j)) : t.reg j = s.reg j := by
  have ne : ∀ d, i.destByte = some (regByte d) → d ≠ j := fun d he hdj => hd (hdj ▸ he)
  cases h with
  | nothing => rfl
  | load d v _ _ he => simp [ne d he]
  | alu d r _ he => rw [reg_putResult s d j r hfl, if_neg (ne d he)]
  | jump => simp [hip]
  | jzTaken => simp [hip, hfl]
  | byteStore => rfl
  | wordStore => rfl

/-- Unless the flags register is the destination, at most Z is written in it, and only by the ten operations and `jz`. -/
theorem fl_eq (h : Quiet i s t) (hd : i.destByte ≠ some (regByte flIdx)) :
    t.fl = s.fl ∨ ((i.op.isAlu = true ∨ i.op = .jz) ∧ ∃ z, t.fl = withZ s.fl z) := by
  have ne : ∀ d, i.destByte = some (regByte d) → d ≠ flIdx := fun d he hdj => hd (hdj ▸ he)
  cases h with
  | nothing => exact .inl rfl
  | load d v _ _ he => exact .inl (by simp [ne d he])
  | alu d r ha he => exact .inr ⟨.inl ha, _, by rw [fl_putResult, if_neg (ne d he)]⟩
  | jump => exact .inl (by simp)
  | jzTaken _ hz => exact .inr ⟨.inr hz, false, by simp⟩
  | byteStore => exact .inl rfl
  | wordStore => exact .inl rfl

/-- The flag bits above Z are left alone. -/
theorem getLsbD_fl (h : Quiet i s t) (hd : i.destByte ≠ some (regByte flIdx)) {k : Nat} (hk : 1 ≤ k) :
    t.fl.getLsbD k = s.fl.getLsbD k := by
  rcases h.fl_eq hd with e | ⟨-, z, e⟩
  · rw [e]
  · rw [e, getLsbD_withZ s.fl z k hk]

/-- `jz` leaves Z clear (R94). -/
theorem zFlag_of_jz (h : Quiet i s t) (hi : i.op = .jz) : zFlag t.fl = false := by
  cases h with
  | nothing _ hz => exact hz hi
  | jzTaken => simp
  | load _ _ _ hz => exact absurd hi hz
  | alu _ _ ha => simp [hi, Op.isAlu] at ha
  | jump _ hj => simp [hi] at hj
  | byteStore _ _ hb => obtain ⟨r, rfl⟩ | ⟨r, b, rfl, -⟩ := hb <;> cases hi
  | wordStore _ _ hb => obtain ⟨r, rfl⟩ | ⟨r, b, rfl, -⟩ := hb <;> cases hi

theorem fl_eq_of_not_alu (h : Quiet i s t) (hd : i.destByte ≠ some (regByte flIdx)) (ha : i.op.isAlu = false)
    (hz : i.op ≠ .jz) : t.fl = s.fl :=
  (h.fl_eq hd).resolve_right fun ⟨hw, _⟩ => hw.elim (by simp [ha]) hz

end Quiet

/-- Settles O19: a trap writes the flags alone, the advance IP alone, and a quiet body is `Quiet.reg_eq`. -/
theorem registersChangeOnlyByName : Obligations.RegistersChangeOnlyByName := by
  intro s t j hj h hq hne
  have hfl : flIdx ≠ j := by rintro rfl; exact absurd hj (by decide)
  have hip : ipIdx ≠ j := by rintro rfl; exact absurd hj (by decide)
  rcases step_eq_next h with ⟨-, rfl⟩ | ⟨-, -, rfl⟩ | ⟨i, -, hi, hx⟩
  · exact absurd (by simp [takeTrap_eq, hfl]) hne
  · exact absurd (by simp [takeTrap_eq, hfl]) hne
  · refine ⟨i, hi, ?_⟩
    by_contra hd
    have := (exec_quiet hx hq).reg_eq hip hfl hd
    exact hne (by rw [this, reg_dispatched, if_neg hip])

/-- Settles O22: a quiet instruction writes at most Z, and Z is bit 0. -/
theorem noInstructionWritesOtherFlagBits : Obligations.NoInstructionWritesOtherFlagBits :=
  fun _ _ _ _ h hq hd hk => (exec_quiet h hq).getLsbD_fl hd hk

/-- Settles O23: a trap leaves HALT set, and a body that does not name register 31 leaves bit 7 alone. -/
theorem haltChangesOnlyByTrapsAndRegister31 : Obligations.HaltChangesOnlyByTrapsAndRegister31 := by
  intro s t h hq hne
  rcases step_eq_next h with ⟨ha, rfl⟩ | ⟨-, hd, rfl⟩ | ⟨i, -, hi, hx⟩
  · exact .inl ⟨by simp [takeTrap_eq], .inl ha⟩
  · exact .inl ⟨by simp [takeTrap_eq], .inr hd⟩
  · refine .inr ⟨i, hi, ?_⟩
    by_contra hd
    have := (exec_quiet hx hq).getLsbD_fl hd (k := 7) (by omega)
    exact hne (by rw [haltFlag, this, fl_dispatched, haltFlag])

end Sys2Proof.Machine
end

section
/-! O21. The ten operations as `aluOps` lists them: each is the common body of R82 over an operation on words, and what
is computed on words is the listed result on numbers. -/

namespace Sys2Proof.Machine

open Sys2Proof.Spec

/-- The operation `mk` puts its result `f` in place, whatever its operands (R82). -/
def AluComputes (mk : Byte → Byte → Byte → Instr) (f : Nat → Nat → Option Nat) : Prop :=
  ∀ (d a b : RegIdx) (s : State) (r : Nat), f (s.reg a).toNat (s.reg b).toNat = some r →
    ∃ w, exec (mk (regByte d) (regByte a) (regByte b)) s = .next (s.putResult d w) ∧ w.toNat = r

section Families

variable {mk : Byte → Byte → Byte → Instr}

/-- An operation without a precondition (R83 to R85, R88 to R90). -/
theorem AluComputes.of_total {op : Word → Word → Word} {f : Nat → Nat → Nat}
    (hx : ∀ rd ra rb s, exec (mk rd ra rb) s = aluBody (fun a b => .ok (op a b)) rd ra rb s)
    (hf : ∀ a b, (op a b).toNat = f a.toNat b.toNat) : AluComputes mk fun a b => some (f a b) := by
  intro d a b s r hr
  refine ⟨_, (hx _ _ _ s).trans (aluBody_of_ok rfl), ?_⟩
  rw [hf]
  exact Option.some.inj hr

/-- A division: the divisor is not 0 where there is a result (R86, R87). -/
theorem AluComputes.of_divide {op : Word → Word → Word} {f : Nat → Nat → Nat}
    (hx : ∀ rd ra rb s, exec (mk rd ra rb) s = aluBody (divideBy op s.instrAddr) rd ra rb s)
    (hf : ∀ a b, (op a b).toNat = f a.toNat b.toNat) :
    AluComputes mk fun a b => if b = 0 then none else some (f a b) := by
  intro d a b s r hr
  have hb : s.reg b ≠ 0 := fun h => by simp [h] at hr
  have hb' : (s.reg b).toNat ≠ 0 := fun h => by simp [h] at hr
  refine ⟨_, (hx _ _ _ s).trans (aluBody_of_ok (if_neg hb)), ?_⟩
  rw [hf]
  simpa only [hb', if_false, Option.some.injEq] using hr

/-- A shift: the amount is at most 15 where there is a result (R91, R92). -/
theorem AluComputes.of_shift {op : Word → Nat → Word} {f : Nat → Nat → Nat}
    (hx : ∀ rd ra rb s, exec (mk rd ra rb) s = aluBody (shiftBy op) rd ra rb s)
    (hf : ∀ a n, (op a n).toNat = f a.toNat n) :
    AluComputes mk fun a b => if b < 16 then some (f a b) else none := by
  intro d a b s r hr
  have hb : (s.reg b).toNat < 16 := by
    by_contra h
    simp [h] at hr
  refine ⟨_, (hx _ _ _ s).trans (aluBody_of_ok (if_pos hb)), ?_⟩
  rw [hf]
  simpa only [hb, if_true, Option.some.injEq] using hr

end Families

/-- The borrow of a 16-bit subtraction, written out (R84). -/
theorem toNat_sub_word (a b : Word) :
    (a - b).toNat = if b.toNat ≤ a.toNat then a.toNat - b.toNat else a.toNat + 65536 - b.toNat := by
  have := a.isLt
  have := b.isLt
  rw [BitVec.toNat_sub]
  split <;> omega

theorem toNat_shiftLeft_word (a : Word) (n : Nat) : (a.shiftLeft n).toNat = a.toNat * 2 ^ n % 65536 := by
  rw [← Nat.shiftLeft_eq]
  exact BitVec.toNat_shiftLeft

theorem toNat_ushiftRight_word (a : Word) (n : Nat) : (a.ushiftRight n).toNat = a.toNat / 2 ^ n := by
  rw [← Nat.shiftRight_eq_div_pow]
  exact BitVec.toNat_ushiftRight a n

/-- Every operation of R83 to R92 computes the result listed for it. -/
theorem aluComputes_of_mem_aluOps : ∀ p ∈ aluOps, AluComputes p.1 p.2 := by
  simp only [aluOps, List.forall_mem_cons]
  refine ⟨?add, ?sub, ?mul, ?div, ?mod, ?and, ?or, ?xor, ?shl, ?shr, nofun⟩
  case add => exact .of_total (fun _ _ _ _ => rfl) BitVec.toNat_add
  case sub => exact .of_total (fun _ _ _ _ => rfl) toNat_sub_word
  case mul => exact .of_total (fun _ _ _ _ => rfl) BitVec.toNat_mul
  case div => exact .of_divide (fun _ _ _ _ => rfl) fun _ _ => BitVec.toNat_udiv
  case mod => exact .of_divide (fun _ _ _ _ => rfl) fun _ _ => BitVec.toNat_umod
  case and => exact .of_total (fun _ _ _ _ => rfl) BitVec.toNat_and
  case or => exact .of_total (fun _ _ _ _ => rfl) BitVec.toNat_or
  case xor => exact .of_total (fun _ _ _ _ => rfl) BitVec.toNat_xor
  case shl => exact .of_shift (fun _ _ _ _ => rfl) toNat_shiftLeft_word
  case shr => exact .of_shift (fun _ _ _ _ => rfl) toNat_ushiftRight_word

/-- Settles O21: `putResult` writes Z last, from the result; and every other quiet effect is `jz`'s or leaves the flags
alone. -/
theorem onlyAluAndJzWriteZ : Obligations.OnlyAluAndJzWriteZ := by
  refine ⟨fun p hp d a b s r hr => ?_, fun i s t h hq hd => ?_⟩
  · obtain ⟨w, hx, rfl⟩ := aluComputes_of_mem_aluOps p hp d a b s r hr
    exact ⟨_, hx, by rw [fl_putResult, zFlag_withZ, zOfResult_eq_true]⟩
  · have hquiet := exec_quiet h hq
    exact ⟨hquiet.zFlag_of_jz, fun ha hz => by rw [hquiet.fl_eq_of_not_alu hd ha hz]⟩

end Sys2Proof.Machine
end

section
/-! The ten operations share the body of R82: what an arm is told of the state is the instruction's address alone. -/

namespace Sys2Proof.Machine

/-- The common body of an arithmetic or bitwise instruction, whatever the state, and what its well-formedness checks. -/
theorem exec_eq_aluBody_instrAddr {i : Instr} (hi : i.op.isAlu = true) :
    ∃ (op : Word → Word → Word → Except Fault Word) (rd ra rb : Byte),
      i.wellFormed = (regByteOk rd && regByteOk ra && regByteOk rb) ∧
      ∀ s, exec i s = aluBody (op s.instrAddr) rd ra rb s := by
  cases i with
  | add => exact ⟨fun _ a b => .ok (a + b), _, _, _, rfl, fun _ => rfl⟩
  | sub => exact ⟨fun _ a b => .ok (a - b), _, _, _, rfl, fun _ => rfl⟩
  | mul => exact ⟨fun _ a b => .ok (a * b), _, _, _, rfl, fun _ => rfl⟩
  | div => exact ⟨divideBy BitVec.udiv, _, _, _, rfl, fun _ => rfl⟩
  | mod => exact ⟨divideBy BitVec.umod, _, _, _, rfl, fun _ => rfl⟩
  | and => exact ⟨fun _ a b => .ok (a &&& b), _, _, _, rfl, fun _ => rfl⟩
  | or => exact ⟨fun _ a b => .ok (a ||| b), _, _, _, rfl, fun _ => rfl⟩
  | xor => exact ⟨fun _ a b => .ok (a ^^^ b), _, _, _, rfl, fun _ => rfl⟩
  | shl => exact ⟨fun _ => shiftBy BitVec.shiftLeft, _, _, _, rfl, fun _ => rfl⟩
  | shr => exact ⟨fun _ => shiftBy BitVec.ushiftRight, _, _, _, rfl, fun _ => rfl⟩
  | nop | ldi | ldr | ldrb | jmp | jz | jr | sti | stib | str | strb | sys => cases hi

end Sys2Proof.Machine
end

section
/-! O18. `withUnseen` replaces the two fields no instruction reads. Every accessor reads through it, every update commutes
with it, and so do the data accesses and the instructions as long as they make no callback. -/

namespace Sys2Proof.Machine

/-- `s` with another counter and other pending answers, which no program sees (R24, R4). -/
def State.withUnseen (s : State) (n : Nat) (as : List HostAnswer) : State := { s with icount := n, hostAnswers := as }

section Unseen

variable {s t : State} {n : Nat} {as : List HostAnswer}

@[simp] theorem reg_withUnseen (j : RegIdx) : (s.withUnseen n as).reg j = s.reg j := rfl
@[simp] theorem fl_withUnseen : (s.withUnseen n as).fl = s.fl := rfl
@[simp] theorem byte_withUnseen (a : Word) : (s.withUnseen n as).byte a = s.byte a := rfl
@[simp] theorem fetch_withUnseen : (s.withUnseen n as).fetch = s.fetch := rfl
@[simp] theorem aligned_withUnseen : (s.withUnseen n as).aligned = s.aligned := rfl
@[simp] theorem instrAddr_withUnseen : (s.withUnseen n as).instrAddr = s.instrAddr := rfl
@[simp] theorem mmioMatch_withUnseen (addr : Word) : (s.withUnseen n as).mmioMatch addr = s.mmioMatch addr := rfl

theorem takeTrap_withUnseen (k : TrapKind) : takeTrap k (s.withUnseen n as) = (takeTrap k s).withUnseen n as := rfl

theorem dispatched_withUnseen : (s.withUnseen n as).dispatched = s.dispatched.withUnseen (n + 1) as := rfl

theorem loadInto_withUnseen (d : RegIdx) (v : Option Word) :
    loadInto d (v, s.withUnseen n as) = (loadInto d (v, s)).withUnseen n as := by
  cases v <;> rfl

theorem memRead8_withUnseen {addr : Word} (h : NoHostCall s (memRead8 addr s).2) :
    memRead8 addr (s.withUnseen n as) = ((memRead8 addr s).1, (memRead8 addr s).2.withUnseen n as) := by
  unfold memRead8 at *
  rw [mmioMatch_withUnseen]
  cases hm : s.mmioMatch addr with
  | none => rfl
  | some e =>
    cases hr : e.hasRead with
    | false => simp [hr]
    | true =>
      simp only [hm, hr, if_true] at h
      exact absurd h (callHost_not_quiet _ s)

theorem memWrite8_withUnseen {addr v : Word} (h : NoHostCall s (memWrite8 addr v s)) :
    memWrite8 addr v (s.withUnseen n as) = (memWrite8 addr v s).withUnseen n as := by
  unfold memWrite8 at *
  rw [mmioMatch_withUnseen]
  cases hm : s.mmioMatch addr with
  | none => rfl
  | some e =>
    cases hw : e.hasWrite with
    | false => simp [hw]
    | true =>
      simp only [hm, hw, if_true] at h
      exact absurd h (callHost_not_quiet _ s)

theorem memRead16_withUnseen {addr : Word} {r : Option Word × State} (hr : memRead16 addr s = .ok r)
    (hq : NoHostCall s r.2) : memRead16 addr (s.withUnseen n as) = .ok (r.1, r.2.withUnseen n as) := by
  unfold memRead16 at *
  rw [mmioMatch_withUnseen]
  split at hr
  · cases hr
  · next ha =>
    rw [if_neg ha]
    split at hr
    · cases hr; rfl
    · split at hr
      · cases hr; exact absurd hq (callHost_twice_not_quiet _ _ s)
      · next hn => cases hr; simp [hn]

theorem memWrite16_withUnseen {addr v : Word} (hr : memWrite16 addr v s = .ok t) (hq : NoHostCall s t) :
    memWrite16 addr v (s.withUnseen n as) = .ok (t.withUnseen n as) := by
  unfold memWrite16 at *
  rw [mmioMatch_withUnseen]
  split at hr
  · cases hr
  · next ha =>
    rw [if_neg ha]
    split at hr
    · cases hr; rfl
    · split at hr
      · cases hr; exact absurd hq (callHost_twice_not_quiet _ _ s)
      · next hn => cases hr; simp [hn]

theorem aluBody_withUnseen {op : Word → Word → Except Fault Word} {rd ra rb : Byte}
    (h : aluBody op rd ra rb s = .next t) :
    aluBody op rd ra rb (s.withUnseen n as) = .next (t.withUnseen n as) := by
  obtain ⟨d, a, b, r, rfl, rfl, rfl, ho, rfl⟩ := aluBody_eq_next h
  exact aluBody_of_ok ho

/-- An instruction that makes no callback does the same whatever the two unseen fields hold. -/
theorem exec_withUnseen {i : Instr} (h : exec i s = .next t) (hq : NoHostCall s t) :
    exec i (s.withUnseen n as) = .next (t.withUnseen n as) := by
  by_cases halu : i.op.isAlu = true
  · obtain ⟨op, rd, ra, rb, -, hx⟩ := exec_eq_aluBody_instrAddr halu
    rw [hx] at h ⊢
    exact aluBody_withUnseen h
  cases i with
  | nop | jmp => cases h; rfl
  | ldi rd imm =>
    rw [exec_ldi, execLdi] at h ⊢
    obtain ⟨d, rfl, h1⟩ := withReg_eq_next h
    cases h1
    rw [withReg_regByte]; rfl
  | ldr rd ra =>
    rw [exec_ldr, execLdr] at h ⊢
    obtain ⟨d, rfl, h1⟩ := withReg_eq_next h
    obtain ⟨a, rfl, h2⟩ := withReg_eq_next h1
    rw [withReg_regByte, withReg_regByte, reg_withUnseen]
    rw [resultOf_eq_next] at h2 ⊢
    cases hr : memRead16 (s.reg a) s with
    | error f => rw [hr] at h2; cases h2
    | ok r =>
      rw [hr] at h2; cases h2
      rw [NoHostCall, loadInto_hostCalls] at hq
      rw [memRead16_withUnseen hr hq]
      exact congrArg _ (loadInto_withUnseen d r.1)
  | ldrb rd ra =>
    rw [exec_ldrb, execLdrb] at h ⊢
    obtain ⟨d, rfl, h1⟩ := withReg_eq_next h
    obtain ⟨a, rfl, h2⟩ := withReg_eq_next h1
    cases h2
    rw [NoHostCall, loadInto_hostCalls] at hq
    rw [withReg_regByte, withReg_regByte, reg_withUnseen, memRead8_withUnseen hq, loadInto_withUnseen]
  | jz imm =>
    rw [exec_jz, execJz] at h ⊢
    rw [fl_withUnseen]
    split at h
    · next hz => cases h; rw [if_pos hz]; rfl
    · next hz => cases h; rw [if_neg hz]
  | jr ra =>
    rw [exec_jr, execJr] at h ⊢
    obtain ⟨a, rfl, h1⟩ := withReg_eq_next h
    cases h1
    rw [withReg_regByte]; rfl
  | sti rs imm =>
    rw [exec_sti, execSti] at h ⊢
    obtain ⟨r, rfl, h1⟩ := withReg_eq_next h
    rw [withReg_regByte, resultOf_eq_next]
    exact memWrite16_withUnseen (resultOf_eq_next.mp h1) hq
  | stib rs imm =>
    rw [exec_stib, execStib] at h ⊢
    obtain ⟨r, rfl, h1⟩ := withReg_eq_next h
    cases h1
    rw [withReg_regByte, reg_withUnseen, memWrite8_withUnseen hq]
  | str rs ra =>
    rw [exec_str, execStr] at h ⊢
    obtain ⟨r, rfl, h1⟩ := withReg_eq_next h
    obtain ⟨a, rfl, h2⟩ := withReg_eq_next h1
    rw [withReg_regByte, withReg_regByte, resultOf_eq_next]
    exact memWrite16_withUnseen (resultOf_eq_next.mp h2) hq
  | strb rs ra =>
    rw [exec_strb, execStrb] at h ⊢
    obtain ⟨r, rfl, h1⟩ := withReg_eq_next h
    obtain ⟨a, rfl, h2⟩ := withReg_eq_next h1
    cases h2
    rw [withReg_regByte, withReg_regByte, reg_withUnseen, reg_withUnseen, memWrite8_withUnseen hq]
  | sys =>
    rw [exec_sys, execSys] at h
    split at h
    · cases h; exact absurd hq (callHost_not_quiet _ s)
    · cases h
  | add | sub | mul | div | mod | and | or | xor | shl | shr => exact absurd rfl halu

end Unseen

/-- No instruction body writes the counter; only a callback can. -/
theorem Quiet.icount_eq {i : Instr} {s t : State} (h : Quiet i s t) : t.icount = s.icount := by
  cases h <;> rfl

/-- Settles O18: a trap moves the counter by 0, and a dispatch by 1 before its body, which commutes with `withUnseen`. -/
theorem counterAndHostAnswersAreInvisibleToPrograms : Obligations.CounterAndHostAnswersAreInvisibleToPrograms := by
  intro s t n as h hq
  change step (s.withUnseen n as) = .next (t.withUnseen (n + (t.icount - s.icount)) as)
  rw [step, aligned_withUnseen, fetch_withUnseen]
  rcases step_eq_next h with ⟨ha, rfl⟩ | ⟨ha, hd, rfl⟩ | ⟨i, ha, hd, hx⟩
  · simp [ha, takeTrap_withUnseen]
  · simp [ha, hd, takeTrap_withUnseen]
  · have hc : n + (t.icount - s.icount) = n + 1 := by
      rw [(exec_quiet hx hq).icount_eq, dispatched_icount]
      omega
    simp only [ha, hd, if_true, hc, dispatched_withUnseen]
    exact exec_withUnseen hx hq

end Sys2Proof.Machine
end

section
/-! O9. An operand out of range faults wherever it stands among the operands, and the register bytes that `usedRegBytes`
lists from the opcode byte are those whose range `decode` checks. -/

namespace Sys2Proof.Machine

open Sys2Proof.Spec

/-! ## The bodies -/

/-- One operand, when what follows it faults if it is in range. -/
theorem withReg_eq_regIndexRange {b : Byte} {k : RegIdx → Result}
    (h : regByteOk b = true → ∀ i, k i = .fault .regIndexRange) : withReg b k = .fault .regIndexRange := by
  by_cases hb : b.toNat < 32
  · obtain ⟨i, rfl⟩ := exists_regByte hb
    rw [withReg_regByte, h (regByteOk_regByte i)]
  · exact withReg_of_ge hb k

section IllFormed

variable {b c d : Byte}

theorem withReg_of_not_ok (h : regByteOk b = false) (k : RegIdx → Result) : withReg b k = .fault .regIndexRange :=
  withReg_eq_regIndexRange fun hb => by simp [hb] at h

theorem withReg_withReg_of_not_ok (h : (regByteOk b && regByteOk c) = false) (k : RegIdx → RegIdx → Result) :
    (withReg b fun i => withReg c (k i)) = .fault .regIndexRange :=
  withReg_eq_regIndexRange fun hb _ => withReg_of_not_ok (by simpa only [hb, Bool.true_and] using h) _

theorem aluBody_of_not_ok (h : (regByteOk d && regByteOk b && regByteOk c) = false)
    (op : Word → Word → Except Fault Word) (s : State) : aluBody op d b c s = .fault .regIndexRange :=
  withReg_eq_regIndexRange fun hd _ => withReg_withReg_of_not_ok (by simpa only [hd, Bool.true_and] using h) _

end IllFormed

/-- No meaning acts on an ill-formed term. -/
theorem exec_of_not_wellFormed {i : Instr} (h : i.wellFormed = false) (s : State) :
    exec i s = .fault .regIndexRange := by
  by_cases halu : i.op.isAlu = true
  · obtain ⟨op, rd, ra, rb, hw, hx⟩ := exec_eq_aluBody_instrAddr halu
    rw [hx]
    exact aluBody_of_not_ok (hw.symm.trans h) _ s
  cases i with
  | nop | jmp | jz | sys => cases h
  | ldi => rw [exec_ldi]; exact withReg_of_not_ok h _
  | jr => rw [exec_jr]; exact withReg_of_not_ok h _
  | sti => rw [exec_sti]; exact withReg_of_not_ok h _
  | stib => rw [exec_stib]; exact withReg_of_not_ok h _
  | ldr => rw [exec_ldr]; exact withReg_withReg_of_not_ok h _
  | ldrb => rw [exec_ldrb]; exact withReg_withReg_of_not_ok h _
  | str => rw [exec_str]; exact withReg_withReg_of_not_ok h _
  | strb => rw [exec_strb]; exact withReg_withReg_of_not_ok h _
  | add | sub | mul | div | mod | and | or | xor | shl | shr => exact absurd rfl halu

/-! ## The decoder -/

/-- The opcode numbering has no gap up to 0x15 (R57, R60). -/
theorem exists_opcodeOf {b : Byte} (h : b.toNat ≤ 0x15) : ∃ o, b = opcodeOf o := by
  have all : ∀ n : Fin 22, ∃ o ∈ allOps, BitVec.ofNat 8 n.val = opcodeOf o := by decide
  obtain ⟨o, -, ho⟩ := all ⟨b.toNat, by omega⟩
  exact ⟨o, by rw [← ho]; simp⟩

/-- The two ways to say which register bytes are checked agree: from the opcode byte and from the term (R51 to R57). -/
theorem wellFormed_assembleFields_iff {o : Op} {w : InstrBytes} (hw : w.b0 = opcodeOf o) :
    (assembleFields o w).wellFormed = true ↔ ∀ b ∈ usedRegBytes w, b.toNat < 32 := by
  rw [usedRegBytes, hw]
  cases o <;> simp [opcodeOf, assembleFields, Instr.wellFormed, and_assoc]

theorem decode_eq_badReg {w : InstrBytes} (ho : w.b0.toNat ≤ 0x15) (hb : ∃ b ∈ usedRegBytes w, 31 < b.toNat) :
    decode w = .badReg := by
  obtain ⟨o, hw⟩ := exists_opcodeOf ho
  obtain ⟨b, hmem, hgt⟩ := hb
  have hwf : ¬ (assembleFields o w).wellFormed = true := fun h =>
    absurd ((wellFormed_assembleFields_iff hw).mp h b hmem) (by omega)
  simp only [decode, hw, opOfByte_opcodeOf, if_neg hwf]

/-- Settles O9: such bytes decode to `badReg`, and `exec` is `exec_of_not_wellFormed`. -/
theorem registerByteOver31Faults : Obligations.RegisterByteOver31Faults := by
  refine ⟨fun s ha ho hb => ?_, fun i s h => exec_of_not_wellFormed h s⟩
  rw [step, if_pos ha, decode_eq_badReg ho hb]

end Sys2Proof.Machine
end

section
/-! O40. `List.find?` is the first entry that passes the test, and the test is the spec's half-open range (R31, R33). -/

namespace Sys2Proof.Machine

open Sys2Proof.Spec

variable {s : State} {addr : Word} {e : MmioEntry}

theorem inEntry_eq_true : inEntry e addr = true ↔ Covers e addr := by simp [inEntry, Covers]

theorem mmioMatch_eq_some : s.mmioMatch addr = some e ↔ FirstMatch s addr e := by
  simp only [State.mmioMatch, List.find?_eq_some_iff_append, Bool.not_eq_true', ← Bool.not_eq_true, inEntry_eq_true]
  constructor
  · rintro ⟨hc, before, after, ht, hb⟩
    exact ⟨before, after, ht, hc, hb⟩
  · rintro ⟨before, after, ht, hc, hb⟩
    exact ⟨hc, before, after, ht, hb⟩

theorem mmioMatch_eq_none : s.mmioMatch addr = none ↔ NoMatch s addr := by
  simp only [State.mmioMatch, List.find?_eq_none, inEntry_eq_true, NoMatch]

/-- Settles O40, both halves read off `State.mmioMatch`. -/
theorem mmioMatchIsTheFirstRegistered : Obligations.MmioMatchIsTheFirstRegistered :=
  fun _ _ => ⟨fun _ => mmioMatch_eq_some, mmioMatch_eq_none⟩

end Sys2Proof.Machine
end

section
/-! The four data accesses case by case of R33 and R34, and the six loads and stores, given register operands, as the
data access each of them makes (R80, R81, R96 to R99). -/

namespace Sys2Proof.Machine

open Sys2Proof.Spec

/-! ## The data accesses -/

section Accesses

variable {s : State} {addr : Word} {e : MmioEntry}

theorem memRead8_of_noMatch (h : NoMatch s addr) : memRead8 addr s = (some (zext16 (s.byte addr)), s) := by
  simp only [memRead8, mmioMatch_eq_none.mpr h]

theorem memRead8_of_silent (h : FirstMatch s addr e) (he : e.hasRead = false) : memRead8 addr s = (none, s) := by
  simp [memRead8, mmioMatch_eq_some.mpr h, he]

theorem memRead16_of_noMatch (ha : addr ≠ 0xFFFF) (h : NoMatch s addr) :
    memRead16 addr s = .ok (some (s.rawWord addr), s) := by
  simp only [memRead16, if_neg ha, mmioMatch_eq_none.mpr h]

theorem memRead16_of_silent (ha : addr ≠ 0xFFFF) (h : FirstMatch s addr e) (he : e.hasRead = false) :
    memRead16 addr s = .ok (none, s) := by
  simp only [memRead16, if_neg ha, mmioMatch_eq_some.mpr h, he, Bool.false_eq_true, if_false]

theorem memWrite8_of_noMatch (h : NoMatch s addr) (v : Word) : memWrite8 addr v s = s.setByte addr (lowByte v) := by
  simp only [memWrite8, mmioMatch_eq_none.mpr h]

theorem memWrite8_of_device (h : FirstMatch s addr e) (he : e.hasWrite = true) (v : Word) :
    memWrite8 addr v s = devWrite e addr (lowByte v) s := by
  simp only [memWrite8, mmioMatch_eq_some.mpr h, he, if_true]

theorem memWrite8_of_silent (h : FirstMatch s addr e) (he : e.hasWrite = false) (v : Word) :
    memWrite8 addr v s = s := by
  simp [memWrite8, mmioMatch_eq_some.mpr h, he]

theorem memWrite16_of_noMatch (ha : addr ≠ 0xFFFF) (h : NoMatch s addr) (v : Word) :
    memWrite16 addr v s = .ok (s.setRawWord addr v) := by
  simp only [memWrite16, if_neg ha, mmioMatch_eq_none.mpr h]

theorem memWrite16_of_device (ha : addr ≠ 0xFFFF) (h : FirstMatch s addr e) (he : e.hasWrite = true) (v : Word) :
    memWrite16 addr v s = .ok (devWrite16 e addr v s) := by
  simp only [memWrite16, if_neg ha, mmioMatch_eq_some.mpr h, he, if_true]

theorem memWrite16_of_silent (ha : addr ≠ 0xFFFF) (h : FirstMatch s addr e) (he : e.hasWrite = false) (v : Word) :
    memWrite16 addr v s = .ok s := by
  simp only [memWrite16, if_neg ha, mmioMatch_eq_some.mpr h, he, Bool.false_eq_true, if_false]

end Accesses

/-! ## The loads and stores -/

section LoadsAndStores

variable (r d a : RegIdx) (imm : Word) (s : State)

theorem exec_ldr_regByte : exec (.ldr (regByte d) (regByte a)) s =
    resultOf ((memRead16 (s.reg a) s).map (loadInto d)) := by
  rw [exec_ldr, execLdr, withReg_regByte, withReg_regByte]

theorem exec_ldrb_regByte : exec (.ldrb (regByte d) (regByte a)) s = .next (loadInto d (memRead8 (s.reg a) s)) := by
  rw [exec_ldrb, execLdrb, withReg_regByte, withReg_regByte]

theorem exec_sti_regByte : exec (.sti (regByte r) imm) s = resultOf (memWrite16 imm (s.reg r) s) := by
  rw [exec_sti, execSti, withReg_regByte]

theorem exec_stib_regByte : exec (.stib (regByte r) imm) s = .next (memWrite8 imm (s.reg r) s) := by
  rw [exec_stib, execStib, withReg_regByte]

theorem exec_str_regByte : exec (.str (regByte r) (regByte a)) s = resultOf (memWrite16 (s.reg a) (s.reg r) s) := by
  rw [exec_str, execStr, withReg_regByte, withReg_regByte]

theorem exec_strb_regByte : exec (.strb (regByte r) (regByte a)) s = .next (memWrite8 (s.reg a) (s.reg r) s) := by
  rw [exec_strb, execStrb, withReg_regByte, withReg_regByte]

variable {s a}

theorem exec_ldr_of_noMatch (ha : s.reg a ≠ 0xFFFF) (h : NoMatch s (s.reg a)) :
    exec (.ldr (regByte d) (regByte a)) s = .next (s.setReg d (s.rawWord (s.reg a))) := by
  rw [exec_ldr_regByte, memRead16_of_noMatch ha h]; rfl

theorem exec_ldrb_of_noMatch (h : NoMatch s (s.reg a)) :
    exec (.ldrb (regByte d) (regByte a)) s = .next (s.setReg d (zext16 (s.byte (s.reg a)))) := by
  rw [exec_ldrb_regByte, memRead8_of_noMatch h]; rfl

theorem exec_str_of_noMatch (ha : s.reg a ≠ 0xFFFF) (h : NoMatch s (s.reg a)) :
    exec (.str (regByte r) (regByte a)) s = .next (s.setRawWord (s.reg a) (s.reg r)) := by
  rw [exec_str_regByte, memWrite16_of_noMatch ha h]; rfl

end LoadsAndStores

end Sys2Proof.Machine
end

section
/-! O41. A silent load or store leaves the state its body sees, so the step is the advance alone. -/

namespace Sys2Proof.Machine

open Sys2Proof.Spec

/-- R34, for the body of each of the six loads and stores. -/
theorem exec_of_silent {i : Instr} {s : State} (h : Silent s i) : exec i s = .next s := by
  rcases h with ⟨d, a, e, rfl | ⟨rfl, ha⟩, hm, he⟩ | ⟨r, a, e, rfl | ⟨rfl, ha⟩, hm, he⟩ |
    ⟨r, imm, e, rfl | ⟨rfl, ha⟩, hm, he⟩
  · rw [exec_ldrb_regByte, memRead8_of_silent hm he]; rfl
  · rw [exec_ldr_regByte, memRead16_of_silent ha hm he]; rfl
  · rw [exec_strb_regByte, memWrite8_of_silent hm he]
  · rw [exec_str_regByte, memWrite16_of_silent ha hm he]; rfl
  · rw [exec_stib_regByte, memWrite8_of_silent hm he]
  · rw [exec_sti_regByte, memWrite16_of_silent ha hm he]; rfl

theorem step_eq_exec {s : State} {i : Instr} (ha : s.aligned = true) (hd : decode s.fetch = .instr i) :
    step s = exec i s.dispatched := by
  simp only [step, ha, hd, if_true]

/-- The advance of R72 writes IP and the counter alone. -/
theorem sameExcept_dispatched (s : State) : SameExcept [ipIdx] [] s s.dispatched := by
  refine ⟨fun i hi => ?_, fun _ _ => rfl, rfl, rfl, rfl, rfl⟩
  rw [reg_dispatched, if_neg (Ne.symm (by simpa using hi))]

/-- Settles O41: the step ends in the dispatched state. -/
theorem missingCallbackIsSilent : Obligations.MissingCallbackIsSilent := by
  intro s i ha hd hs
  exact ⟨s.dispatched, by rw [step_eq_exec ha hd, exec_of_silent hs], ip_dispatched s, rfl, sameExcept_dispatched s⟩

end Sys2Proof.Machine
end

section
/-! O42. What a raw 16-bit write leaves in the two bytes it stores to, and how the two raw reads see it. -/

namespace Sys2Proof.Machine

open Sys2Proof.Spec

theorem word_ne_add_one (a : Word) : a ≠ a + 1 := by simp

@[simp] theorem byte_setRawWord_low (s : State) (a v : Word) : (s.setRawWord a v).byte a = lowByte v := by
  rw [State.setRawWord, byte_setByte, if_neg (word_ne_add_one a), byte_setByte, if_pos rfl]

theorem byte_setRawWord_high (s : State) (a v : Word) : (s.setRawWord a v).byte (a + 1) = highByte v := by
  rw [State.setRawWord, byte_setByte, if_pos rfl]

theorem byte_setRawWord_of_ne {s : State} {a v c : Word} (hlo : c ≠ a) (hhi : c ≠ a + 1) :
    (s.setRawWord a v).byte c = s.byte c := by
  rw [State.setRawWord, byte_setByte, if_neg hhi, byte_setByte, if_neg hlo]

/-- Raw loads and stores agree on the byte order (R41). -/
@[simp] theorem rawWord_setRawWord (s : State) (a v : Word) : (s.setRawWord a v).rawWord a = v := by
  rw [State.rawWord, byte_setRawWord_high, byte_setRawWord_low, joinBytes_highByte_lowByte]

@[simp] theorem toNat_zext16 (b : Byte) : (zext16 b).toNat = b.toNat := by
  simp [zext16, toNat_joinBytes]

/-- Settles O42: the raw store writes no register and no table, so the three loads find the same addresses unmatched. -/
theorem storeThenLoadGivesTheValue : Obligations.StoreThenLoadGivesTheValue := by
  intro r a d s ha hn
  refine ⟨s.setRawWord (s.reg a) (s.reg r), exec_str_of_noMatch r ha hn,
    ⟨_, exec_ldr_of_noMatch d ha hn, ?_⟩, ⟨_, exec_ldrb_of_noMatch d hn, ?_⟩,
    fun c hc hnc => ⟨_, exec_ldrb_of_noMatch d hnc, ?_⟩⟩
  · simp
  · simp [toNat_lowByte]
  · rw [reg_setReg, if_pos rfl, toNat_zext16, reg_setRawWord, hc, byte_setRawWord_high, toNat_highByte]

end Sys2Proof.Machine
end

section
/-! O20. A quiet instruction writes memory only in the two store cases of `Quiet`, at the bytes `storedBytes` lists. -/

namespace Sys2Proof.Machine

open Sys2Proof.Spec

@[simp] theorem storedBytes_str (s : State) (r : Byte) (b : RegIdx) :
    storedBytes s (.str r (regByte b)) = [s.reg b, s.reg b + 1] := by
  simp [storedBytes]

@[simp] theorem storedBytes_strb (s : State) (r : Byte) (b : RegIdx) :
    storedBytes s (.strb r (regByte b)) = [s.reg b] := by
  simp [storedBytes]

/-- The memory frame of an instruction that makes no callback (R30). -/
theorem Quiet.byte_eq {i : Instr} {s t : State} (h : Quiet i s t) {a : Word} (ha : a ∉ storedBytes s i) :
    t.byte a = s.byte a := by
  cases h with
  | nothing | load | alu | jump | jzTaken => rfl
  | byteStore c v hi =>
    have hne : a ≠ c := by
      obtain ⟨r, rfl⟩ | ⟨r, b, rfl, rfl⟩ := hi
      · simpa [storedBytes] using ha
      · simpa using ha
    rw [byte_setByte, if_neg hne]
  | wordStore c v hi =>
    obtain ⟨hlo, hhi⟩ : a ≠ c ∧ a ≠ c + 1 := by
      obtain ⟨r, rfl⟩ | ⟨r, b, rfl, rfl⟩ := hi
      · simpa [storedBytes] using ha
      · simpa using ha
    exact byte_setRawWord_of_ne hlo hhi

/-- Settles O20: neither a trap nor the advance writes memory, and a quiet body is `Quiet.byte_eq`. -/
theorem memoryChangesOnlyByStores : Obligations.MemoryChangesOnlyByStores := by
  intro s t a h hq hne
  rcases step_eq_next h with ⟨-, rfl⟩ | ⟨-, -, rfl⟩ | ⟨i, -, hi, hx⟩
  · exact absurd (byte_takeTrap s a _) hne
  · exact absurd (byte_takeTrap s a _) hne
  · refine ⟨i, hi, ?_⟩
    by_contra ha
    exact hne ((exec_quiet hx hq).byte_eq ha)

end Sys2Proof.Machine
end

section
/-! O43. A raw store leaves every byte as `overlaid` has it, and a callback whose answer writes nothing leaves memory and
IP alone. Both facts are about the two write accesses, so each is used for two of the four stores. -/

namespace Sys2Proof.Machine

open Sys2Proof.Spec

/-! ## Raw stores -/

theorem ofNat_mod_eq_lowByte (v : Word) : BitVec.ofNat 8 (v.toNat % 256) = lowByte v := by
  apply BitVec.eq_of_toNat_eq
  simp [toNat_lowByte]

theorem ofNat_div_eq_highByte (v : Word) : BitVec.ofNat 8 (v.toNat / 256) = highByte v := by
  have := v.isLt
  apply BitVec.eq_of_toNat_eq
  rw [toNat_highByte, BitVec.toNat_ofNat]
  omega

theorem wordBytes_eq (v : Word) : wordBytes v = [lowByte v, highByte v] := by
  rw [wordBytes, ofNat_mod_eq_lowByte, ofNat_div_eq_highByte]

/-- The bytes laid over memory do not reach an address at or past their end, counted from their start (mod 2^16). -/
theorem overlaid_of_length_le {s : State} {addr a : Word} {bytes : List Byte} (h : bytes.length ≤ (a - addr).toNat) :
    overlaid s addr bytes a = s.byte a := by
  rw [overlaid, List.getElem?_eq_none h, Option.getD_none]

theorem byte_setByte_eq_overlaid (s : State) (addr a : Word) (b : Byte) :
    (s.setByte addr b).byte a = overlaid s addr [b] a := by
  by_cases h : a = addr
  · simp [h, overlaid]
  · rw [byte_setByte, if_neg h, overlaid_of_length_le]
    simp only [List.length_singleton]
    bv_omega

theorem byte_setRawWord_eq_overlaid (s : State) (addr a v : Word) :
    (s.setRawWord addr v).byte a = overlaid s addr (wordBytes v) a := by
  rw [wordBytes_eq]
  by_cases hlo : a = addr
  · simp [hlo, overlaid]
  by_cases hhi : a = addr + 1
  · rw [hhi, byte_setRawWord_high, overlaid, show addr + 1 - addr = 1 by bv_omega]; rfl
  · rw [byte_setRawWord_of_ne hlo hhi, overlaid_of_length_le]
    simp only [List.length_cons, List.length_nil]
    bv_omega

/-! ## Callbacks that write nothing -/

/-- The next `n` callbacks have listed answers, and these write nothing into the core (log entry 4). With `n` the number
of bytes stored this is the premise of `NextFetchAfterStore`. -/
def QuietAnswers (n : Nat) (s : State) : Prop :=
  n ≤ s.hostAnswers.length ∧ ∀ a ∈ s.hostAnswers.take n, a.writes = {}

section QuietAnswers

variable {n : Nat} {s : State}

theorem QuietAnswers.exists_cons (h : QuietAnswers (n + 1) s) :
    ∃ a rest, s.hostAnswers = a :: rest ∧ a.writes = {} ∧ n ≤ rest.length ∧ ∀ b ∈ rest.take n, b.writes = {} := by
  obtain ⟨hlen, hall⟩ := h
  cases hs : s.hostAnswers with
  | nil => simp [hs] at hlen
  | cons a rest =>
    rw [hs] at hlen hall
    exact ⟨a, rest, rfl, hall a (by simp), by simpa using hlen, fun b hb => hall b (by simp [hb])⟩

/-- A callback with such an answer is only recorded. -/
theorem QuietAnswers.callHost_eq (h : QuietAnswers (n + 1) s) (c : HostCall) : (callHost c s).2 = s.recordCall c := by
  obtain ⟨a, rest, hs, ha, -, -⟩ := h.exists_cons
  exact callHost_of_quiet c s (by rw [hostAnswer_of_cons c s hs, ha])

/-- It uses one such answer up. -/
theorem QuietAnswers.recordCall (h : QuietAnswers (n + 1) s) (c : HostCall) : QuietAnswers n (s.recordCall c) := by
  obtain ⟨a, rest, hs, -, hlen, hall⟩ := h.exists_cons
  rw [QuietAnswers, recordCall_hostAnswers, hs]
  exact ⟨hlen, hall⟩

theorem QuietAnswers.devWrite_eq (h : QuietAnswers (n + 1) s) (e : MmioEntry) (addr : Word) (b : Byte) :
    devWrite e addr b s = s.recordCall (.devWrite e addr b) :=
  h.callHost_eq _

theorem QuietAnswers.devWrite16_eq (h : QuietAnswers (n + 2) s) (e : MmioEntry) (addr v : Word) :
    devWrite16 e addr v s =
      (s.recordCall (.devWrite e addr (highByte v))).recordCall (.devWrite e (addr + 1) (lowByte v)) := by
  rw [devWrite16, h.devWrite_eq, (h.recordCall _).devWrite_eq]

end QuietAnswers

@[simp] theorem fetch_recordCall (s : State) (c : HostCall) : (s.recordCall c).fetch = s.fetch := rfl

/-! ## The two widths -/

section Widths

variable {i : Instr} {addr v : Word} {s : State}

theorem nextFetchAfterStore_of_memWrite16 (hx : exec i s = resultOf (memWrite16 addr v s)) (ha : addr ≠ 0xFFFF) :
    NextFetchAfterStore i addr (wordBytes v) s := by
  refine ⟨fun hn => ⟨s.setRawWord addr v, by rw [hx, memWrite16_of_noMatch ha hn]; rfl, ?_⟩, fun e he hq => ?_⟩
  · simp only [← byte_setRawWord_eq_overlaid]; rfl
  · cases hw : e.hasWrite with
    | false => exact ⟨s, by rw [hx, memWrite16_of_silent ha he hw]; rfl, rfl⟩
    | true => exact ⟨_, by rw [hx, memWrite16_of_device ha he hw]; rfl, by
      rw [QuietAnswers.devWrite16_eq (hq hw), fetch_recordCall, fetch_recordCall]⟩

theorem nextFetchAfterStore_of_memWrite8 (hx : exec i s = .next (memWrite8 addr v s)) :
    NextFetchAfterStore i addr [BitVec.ofNat 8 (v.toNat % 256)] s := by
  rw [ofNat_mod_eq_lowByte]
  refine ⟨fun hn => ⟨s.setByte addr (lowByte v), by rw [hx, memWrite8_of_noMatch hn], ?_⟩, fun e he hq => ?_⟩
  · simp only [← byte_setByte_eq_overlaid]; rfl
  · cases hw : e.hasWrite with
    | false => exact ⟨s, by rw [hx, memWrite8_of_silent he hw], rfl⟩
    | true => exact ⟨_, by rw [hx, memWrite8_of_device he hw], by
      rw [QuietAnswers.devWrite_eq (hq hw), fetch_recordCall]⟩

end Widths

/-- Settles O43: each store is one of the two write accesses. -/
theorem storesAreSeenByTheNextFetch : Obligations.StoresAreSeenByTheNextFetch :=
  ⟨fun r addr s ha => nextFetchAfterStore_of_memWrite16 (exec_sti_regByte r addr s) ha,
    fun r addr s => nextFetchAfterStore_of_memWrite8 (exec_stib_regByte r addr s),
    fun r a s ha => nextFetchAfterStore_of_memWrite16 (exec_str_regByte r a s) ha,
    fun r a s => nextFetchAfterStore_of_memWrite8 (exec_strb_regByte r a s)⟩

end Sys2Proof.Machine
end

section
/-! O1 to O4. Over the bytes of one operation, `decode` is `assembleFields` under the range check, and `encode` undoes
`assembleFields` but for the bytes the scheme does not use (R51 to R62). -/

namespace Sys2Proof.Machine

open Sys2Proof.Spec

/-! ## The decoder at one operation -/

/-- R62 once the opcode byte is known, with the range check in any equivalent form. -/
theorem decode_of_opcode {o : Op} {w : InstrBytes} {i : Instr} {inRange : Prop} [Decidable inRange]
    (hw : w.b0 = opcodeOf o) (hi : assembleFields o w = i) (hr : i.wellFormed = true ↔ inRange) :
    decode w = if inRange then .instr i else .badReg := by
  simp only [decode, hw, opOfByte_opcodeOf, hi, hr]

theorem toNat_opcodeOf_le (o : Op) : (opcodeOf o).toNat ≤ 0x15 := by cases o <;> decide

theorem decode_eq_invalid {w : InstrBytes} (h : 0x16 ≤ w.b0.toNat) : decode w = .invalid := by
  have hnone : opOfByte w.b0 = none := Option.eq_none_iff_forall_ne_some.mpr fun o ho => by
    have := toNat_opcodeOf_le o
    rw [opcodeOf_of_opOfByte ho] at this
    omega
  simp only [decode, hnone]

/-! ## Round trips -/

theorem b0_encode (i : Instr) : (encode i).b0 = opcodeOf i.op := by cases i <;> rfl

/-- Only the immediates are taken apart by the encoder; every other operand is a byte of its own. -/
theorem assembleFields_encode (i : Instr) : assembleFields i.op (encode i) = i := by
  cases i with
  | ldi | sti | stib | jmp | jz => simp [Instr.op, encode, assembleFields, immField]
  | nop | ldr | ldrb | add | sub | mul | div | mod | and | or | xor | shl | shr | jr | str | strb | sys => rfl

theorem encode_assembleFields {o : Op} {w : InstrBytes} (hw : w.b0 = opcodeOf o) :
    encode (assembleFields o w) = clearUnused (schemeOf o) w := by
  obtain ⟨b0, b1, b2, b3⟩ := w
  obtain rfl : b0 = opcodeOf o := hw
  cases o with
  | ldi | sti | stib | jmp | jz => simp [Instr.op, encode, assembleFields, immField, clearUnused, schemeOf]
  | nop | ldr | ldrb | add | sub | mul | div | mod | and | or | xor | shl | shr | jr | str | strb | sys => rfl

/-- Settles O1: the first byte selects the operation, whose fields are then the instruction's own. -/
theorem decodeOfEncodeIsTheInstruction : Obligations.DecodeOfEncodeIsTheInstruction := fun i hwf => by
  rw [decode_of_opcode (b0_encode i) (assembleFields_encode i) Iff.rfl, if_pos hwf]

/-- Settles O3: what decodes is `assembleFields` of its opcode's operation, which `encode` undoes. -/
theorem reencodingClearsUnusedBytes : Obligations.ReencodingClearsUnusedBytes := fun w i h => by
  obtain ⟨o, ho, rfl, -⟩ := decode_eq_instr h
  rw [encode_assembleFields (opcodeOf_of_opOfByte ho).symm, op_assembleFields]

/-! ## The rows of the opcode map, by scheme -/

section Rows

variable (o : Op)

theorem regByteOk_iff_le (b : Byte) : regByteOk b = true ↔ b.toNat ≤ 31 := by
  rw [regByteOk_eq_true, Nat.lt_succ_iff]

theorem immField_eq_ofNat (w : InstrBytes) : immField w = BitVec.ofNat 16 (w.b2.toNat * 256 + w.b3.toNat) := by
  rw [immField, ← toNat_joinBytes, BitVec.ofNat_toNat, BitVec.setWidth_eq]

theorem noneRow_of_assembleFields {i : Instr} (hi : ∀ w, assembleFields o w = i) (hr : i.wellFormed = true) :
    NoneRow (opcodeOf o) i := fun _ _ _ => by
  rw [decode_of_opcode rfl (hi _) Iff.rfl, if_pos hr]

theorem regsRow_of_assembleFields {mk : Byte → Byte → Byte → Instr}
    (hi : ∀ w, assembleFields o w = mk w.b1 w.b2 w.b3)
    (hr : ∀ d a b, (mk d a b).wellFormed = (regByteOk d && regByteOk a && regByteOk b)) :
    RegsRow (opcodeOf o) mk := fun _ _ _ =>
  decode_of_opcode rfl (hi _) (by simp only [hr, Bool.and_eq_true, regByteOk_iff_le, and_assoc])

theorem regImmRow_of_assembleFields {mk : Byte → Word → Instr} (hi : ∀ w, assembleFields o w = mk w.b1 (immField w))
    (hr : ∀ r imm, (mk r imm).wellFormed = regByteOk r) : RegImmRow (opcodeOf o) mk := fun _ _ _ =>
  decode_of_opcode rfl (by rw [hi, immField_eq_ofNat]) (by rw [hr, regByteOk_iff_le])

theorem regRegRow_of_assembleFields {mk : Byte → Byte → Instr} (hi : ∀ w, assembleFields o w = mk w.b1 w.b2)
    (hr : ∀ r a, (mk r a).wellFormed = (regByteOk r && regByteOk a)) : RegRegRow (opcodeOf o) mk := fun _ _ _ =>
  decode_of_opcode rfl (hi _) (by simp only [hr, Bool.and_eq_true, regByteOk_iff_le])

theorem regRow_of_assembleFields {mk : Byte → Instr} (hi : ∀ w, assembleFields o w = mk w.b1)
    (hr : ∀ a, (mk a).wellFormed = regByteOk a) : RegRow (opcodeOf o) mk := fun _ _ _ =>
  decode_of_opcode rfl (hi _) (by rw [hr, regByteOk_iff_le])

theorem immRow_of_assembleFields {mk : Word → Instr} (hi : ∀ w, assembleFields o w = mk (immField w))
    (hr : ∀ imm, (mk imm).wellFormed = true) : ImmRow (opcodeOf o) mk := fun _ _ _ => by
  rw [decode_of_opcode rfl (by rw [hi, immField_eq_ofNat]) Iff.rfl, if_pos (hr _)]

end Rows

/-- Settles O2: each row is its scheme's lemma at its operation, and the numbering ends at 0x15. -/
theorem decodeFollowsTheOpcodeMap : Obligations.DecodeFollowsTheOpcodeMap := by
  refine ⟨⟨noneRow_of_assembleFields .nop ?_ ?_, regImmRow_of_assembleFields .ldi ?_ ?_,
    regRegRow_of_assembleFields .ldr ?_ ?_, regRegRow_of_assembleFields .ldrb ?_ ?_,
    regsRow_of_assembleFields .add ?_ ?_, regsRow_of_assembleFields .sub ?_ ?_,
    regsRow_of_assembleFields .mul ?_ ?_, regsRow_of_assembleFields .div ?_ ?_,
    regsRow_of_assembleFields .mod ?_ ?_, regsRow_of_assembleFields .and ?_ ?_,
    regsRow_of_assembleFields .or ?_ ?_, regsRow_of_assembleFields .xor ?_ ?_,
    regsRow_of_assembleFields .shl ?_ ?_, regsRow_of_assembleFields .shr ?_ ?_,
    immRow_of_assembleFields .jmp ?_ ?_, immRow_of_assembleFields .jz ?_ ?_, regRow_of_assembleFields .jr ?_ ?_,
    regImmRow_of_assembleFields .sti ?_ ?_, regImmRow_of_assembleFields .stib ?_ ?_,
    regRegRow_of_assembleFields .str ?_ ?_, regRegRow_of_assembleFields .strb ?_ ?_,
    noneRow_of_assembleFields .sys ?_ ?_⟩, fun _ h => decode_eq_invalid h⟩
  all_goals intros; rfl

/-- Settles O4, word by word. -/
theorem sampleWordsDecode : Obligations.SampleWordsDecode :=
  ⟨by decide, by decide, by decide, by decide, by decide, by decide, by decide, by decide⟩

end Sys2Proof.Machine
end

section
/-! O5 and O12. The cycle of R72 branch by branch: which of them a state takes is decided by IP modulo 4 and then by the
opcode byte at IP. -/

namespace Sys2Proof.Machine

section Cycle

variable {s : State}

theorem aligned_eq_true : s.aligned = true ↔ s.ip.toNat % 4 = 0 := by simp [State.aligned]

theorem aligned_eq_false : s.aligned = false ↔ s.ip.toNat % 4 ≠ 0 := by simp [State.aligned]

theorem step_of_not_aligned (ha : s.aligned = false) : step s = .next (takeTrap .unalignedIP s) := by
  simp [step, ha]

theorem step_of_invalid (ha : s.aligned = true) (hd : decode s.fetch = .invalid) :
    step s = .next (takeTrap .invalidOpcode s) := by
  simp only [step, ha, hd, if_true]

theorem step_of_badReg (ha : s.aligned = true) (hd : decode s.fetch = .badReg) :
    step s = .fault .regIndexRange := by
  simp only [step, ha, hd, if_true]

end Cycle

/-- Settles O5: each clause is one branch of the step. -/
theorem stepIsOneFetchDecodeExecuteCycle : Obligations.StepIsOneFetchDecodeExecuteCycle := by
  refine fun s => ⟨fun ha => step_of_not_aligned (aligned_eq_false.mpr ha), fun ha => ?_⟩
  have ha := aligned_eq_true.mpr ha
  exact ⟨fun ho => step_of_invalid ha (decode_eq_invalid ho), step_of_badReg ha, fun _ hd => step_eq_exec ha hd⟩

/-- The opcode byte of whatever decodes is in the valid range (R57, R60). -/
theorem opcode_le_of_decode {w : InstrBytes} {i : Instr} (h : decode w = .instr i) : w.b0.toNat ≤ 0x15 := by
  obtain ⟨o, ho, -⟩ := decode_eq_instr h
  rw [← opcodeOf_of_opOfByte ho]
  exact toNat_opcodeOf_le o

/-- An opcode byte in the valid range selects an operation, so it is not invalid, whatever follows it. -/
theorem opcode_gt_of_decode_invalid {w : InstrBytes} (h : decode w = .invalid) : ¬ w.b0.toNat ≤ 0x15 := by
  intro hle
  obtain ⟨o, hw⟩ := exists_opcodeOf hle
  rw [decode_of_opcode hw rfl Iff.rfl] at h
  split at h <;> cases h

/-- Settles O12: a trap is taken before the count and only outside the two tests; a quiet body leaves the count that the
dispatch made. -/
theorem counterCountsDispatches : Obligations.CounterCountsDispatches := by
  intro s t h hq
  rcases step_eq_next h with ⟨ha, rfl⟩ | ⟨-, hd, rfl⟩ | ⟨i, ha, hd, hx⟩
  · rw [if_neg fun hc => aligned_eq_false.mp ha hc.1, takeTrap_icount]
  · rw [if_neg fun hc => opcode_gt_of_decode_invalid hd hc.2, takeTrap_icount]
  · rw [if_pos ⟨aligned_eq_true.mp ha, opcode_le_of_decode hd⟩, (exec_quiet hx hq).icount_eq, dispatched_icount]

end Sys2Proof.Machine
end

section
/-! O11. Only a jump or a body whose destination is register 30 writes IP after the advance. -/

namespace Sys2Proof.Machine

theorem Quiet.ip_eq {i : Instr} {s t : State} (h : Quiet i s t) (hj : i.op.isJump = false)
    (hd : i.destByte ≠ some (regByte ipIdx)) : t.ip = s.ip := by
  have ne : ∀ d, i.destByte = some (regByte d) → d ≠ ipIdx := fun d he hdip => hd (hdip ▸ he)
  cases h with
  | nothing | byteStore | wordStore => rfl
  | load d v _ _ he => rw [ip_setReg, if_neg (ne d he)]
  | alu d r _ he => rw [State.ip, reg_putResult s d ipIdx r flIdx_ne_ipIdx, if_neg (ne d he), State.ip]
  | jump _ ho => rcases ho with ho | ho <;> simp [ho, Op.isJump] at hj
  | jzTaken _ ho => simp [ho, Op.isJump] at hj

/-- Settles O11: the advance moves IP past the instruction and the body leaves it there. -/
theorem fallThroughAdvancesByFour : Obligations.FallThroughAdvancesByFour := by
  intro s t i ha hd h hq hj hdest
  rw [step_eq_exec ha hd] at h
  rw [(exec_quiet h hq).ip_eq hj hdest, ip_dispatched]
  exact BitVec.toNat_add s.ip 4

end Sys2Proof.Machine
end

section
/-! O48. The host's loop (R77): what a run that ends halted has done with its first test, and what a trap does to the
second. -/

namespace Sys2Proof.Machine

section Loop

variable {s t : State}

theorem run_of_haltFlag (h : haltFlag s.fl = true) (k : Nat) : run k s = .halted s := by
  rw [run.eq_def, if_pos h]

theorem run_succ_of_next (h : haltFlag s.fl = false) (hs : step s = .next t) (k : Nat) :
    run (k + 1) s = run k t := by
  simp only [run, h, hs, Bool.false_eq_true, if_false]

/-- Everything a run that ends halted can have done first. -/
theorem run_eq_halted {k : Nat} (h : run k s = .halted t) :
    (haltFlag s.fl = true ∧ t = s) ∨
    ∃ j u, k = j + 1 ∧ haltFlag s.fl = false ∧ step s = .next u ∧ run j u = .halted t := by
  rw [run.eq_def] at h
  split at h
  · next hs => cases h; exact .inl ⟨hs, rfl⟩
  · next hs =>
    split at h
    · cases h
    · next j =>
      split at h
      · next u hu => exact .inr ⟨j, u, rfl, by simpa using hs, hu, h⟩
      · cases h
      · cases h

/-- A run that ends halted ends in a state with HALT set, and a larger budget adds nothing to it. -/
theorem run_halted_final {k : Nat} (h : run k s = .halted t) :
    haltFlag t.fl = true ∧ ∀ j, run (k + j) s = .halted t := by
  induction k generalizing s with
  | zero =>
    obtain ⟨hs, rfl⟩ | ⟨_, _, ⟨⟩, -⟩ := run_eq_halted h
    exact ⟨hs, fun _ => run_of_haltFlag hs _⟩
  | succ k ih =>
    obtain ⟨hs, rfl⟩ | ⟨_, u, ⟨⟩, hs, hu, hr⟩ := run_eq_halted h
    · exact ⟨hs, fun _ => run_of_haltFlag hs _⟩
    · obtain ⟨hf, hmore⟩ := ih hr
      refine ⟨hf, fun j => ?_⟩
      rw [Nat.succ_add, run_succ_of_next hs hu, hmore j]

@[simp] theorem haltFlag_takeTrap (k : TrapKind) : haltFlag (takeTrap k s).fl = true := by simp [takeTrap_eq]

theorem step_eq_takeTrap (h : s.aligned = false ∨ decode s.fetch = .invalid) :
    ∃ k, step s = .next (takeTrap k s) := by
  cases ha : s.aligned with
  | false => exact ⟨_, step_of_not_aligned ha⟩
  | true => exact ⟨_, step_of_invalid ha (h.resolve_left (by simp [ha]))⟩

end Loop

/-- Settles O48: a run looks at HALT first, and a trap sets it without counting. -/
theorem runStopsAtTheHaltFlag : Obligations.RunStopsAtTheHaltFlag := by
  refine ⟨fun k _ h => run_of_haltFlag h k, fun _ _ _ h => run_halted_final h, fun k s htrap => ?_⟩
  cases hs : haltFlag s.fl with
  | true => exact ⟨s, run_of_haltFlag hs _, rfl⟩
  | false =>
    obtain ⟨kind, ht⟩ := step_eq_takeTrap htrap
    refine ⟨takeTrap kind s, ?_, takeTrap_icount s kind⟩
    rw [run_succ_of_next hs ht, run_of_haltFlag (haltFlag_takeTrap kind)]

end Sys2Proof.Machine
end

section
/-! O24 and O25. What one register write leaves as it was, and the two bodies of spec/41_nop_ldi.md: `nop` writes nothing
(R78) and `ldi`, given a register operand, makes that one write (R79). -/

namespace Sys2Proof.Machine

open Sys2Proof.Spec

/-! ## A single register write -/

theorem sameExcept_setReg (s : State) (d : RegIdx) (v : Word) : SameExcept [d] [] s (s.setReg d v) := by
  refine ⟨fun i hi => ?_, fun _ _ => rfl, rfl, rfl, rfl, rfl⟩
  rw [reg_setReg, if_neg (Ne.symm (by simpa using hi))]

theorem frame_setReg (s : State) (d : RegIdx) (v : Word) : Frame [d] [] s (s.setReg d v) :=
  ⟨sameExcept_setReg s d v, rfl⟩

/-! ## `nop` -/

/-- The opcode byte at IP alone decides what a row of scheme `none` decodes to (R51, R58). -/
theorem decode_fetch_of_noneRow {k : Byte} {i : Instr} {s : State} (hrow : NoneRow k i) (hk : s.byte s.ip = k) :
    decode s.fetch = .instr i := by
  rw [State.fetch, hk, hrow]

theorem exec_nop_eq_next (s : State) : exec .nop s = .next s := by
  rw [exec_nop, execNop]

/-- Settles O24: a `nop` is fetched whatever follows its opcode byte, and its step ends in the dispatched state. -/
theorem nopOnlyAdvances : Obligations.NopOnlyAdvances := by
  obtain ⟨⟨hrow, -⟩, -⟩ := decodeFollowsTheOpcodeMap
  refine ⟨hrow, fun s => ⟨exec_nop_eq_next s, fun ha hop => ?_⟩⟩
  have hstep : step s = .next s.dispatched := by
    rw [step_eq_exec ha (decode_fetch_of_noneRow hrow hop), exec_nop_eq_next]
  exact ⟨s.dispatched, hstep, ip_dispatched s, dispatched_icount s, sameExcept_dispatched s⟩

/-! ## `ldi` -/

theorem exec_ldi_regByte (d : RegIdx) (imm : Word) (s : State) :
    exec (.ldi (regByte d) imm) s = .next (s.setReg d imm) := by
  rw [exec_ldi, execLdi, withReg_regByte]

theorem exec_ldi_of_gt {rd : Byte} (h : 31 < rd.toNat) (imm : Word) (s : State) :
    exec (.ldi rd imm) s = .fault .regIndexRange := by
  rw [exec_ldi, execLdi, withReg_of_ge (by omega)]

/-- Settles O25: the body is one register write, for each of the 32 registers. -/
theorem ldiWritesTheImmediate : Obligations.LdiWritesTheImmediate := by
  obtain ⟨⟨-, hrow, -⟩, -⟩ := decodeFollowsTheOpcodeMap
  refine ⟨hrow, fun _ imm s h => exec_ldi_of_gt h imm s, fun d imm s => ?_⟩
  exact ⟨s.setReg d imm, exec_ldi_regByte d imm s, by rw [reg_setReg, if_pos rfl], frame_setReg s d imm⟩

end Sys2Proof.Machine
end

section
/-! O26 and O27. The two loads of spec/42_loads.md: where there is a value, from raw memory or from a device, each is one
register write over the state its data access leaves, so its frame is that write's; a silent one is R34's (R80, R81). -/

namespace Sys2Proof.Machine

open Sys2Proof.Spec

/-! ## Device reads -/

section DeviceReads

variable {s : State} {addr : Word} {e : MmioEntry}

theorem memRead8_of_device (h : FirstMatch s addr e) (he : e.hasRead = true) :
    memRead8 addr s = (some (zext16 (devRead e addr s).1), (devRead e addr s).2) := by
  simp only [memRead8, mmioMatch_eq_some.mpr h, he, if_true]

theorem memRead16_of_device (ha : addr ≠ 0xFFFF) (h : FirstMatch s addr e) (he : e.hasRead = true) :
    memRead16 addr s = .ok (some (devRead16 e addr s).1, (devRead16 e addr s).2) := by
  simp only [memRead16, if_neg ha, mmioMatch_eq_some.mpr h, he, if_true]

end DeviceReads

/-! ## The loads -/

/-- The range check of the scheme `reg-reg` failed (R54, R76). -/
theorem regByteOk_and_eq_false {b c : Byte} (h : ¬ (b.toNat ≤ 31 ∧ c.toNat ≤ 31)) :
    (regByteOk b && regByteOk c) = false := by
  rwa [← Bool.not_eq_true, Bool.and_eq_true, regByteOk_iff_le, regByteOk_iff_le]

section Loads

variable {d a : RegIdx} {s : State} {e : MmioEntry}

theorem exec_ldr_pastTop (ha : s.reg a = 0xFFFF) :
    exec (.ldr (regByte d) (regByte a)) s = .fault .accessPastTop := by
  rw [exec_ldr_regByte, memRead16_eq_error.mpr ⟨ha, rfl⟩]; rfl

theorem exec_ldr_of_device (ha : s.reg a ≠ 0xFFFF) (h : FirstMatch s (s.reg a) e) (he : e.hasRead = true) :
    exec (.ldr (regByte d) (regByte a)) s =
      .next ((devRead16 e (s.reg a) s).2.setReg d (devRead16 e (s.reg a) s).1) := by
  rw [exec_ldr_regByte, memRead16_of_device ha h he]; rfl

theorem exec_ldrb_of_device (h : FirstMatch s (s.reg a) e) (he : e.hasRead = true) :
    exec (.ldrb (regByte d) (regByte a)) s =
      .next ((devRead e (s.reg a) s).2.setReg d (zext16 (devRead e (s.reg a) s).1)) := by
  rw [exec_ldrb_regByte, memRead8_of_device h he]; rfl

/-- An instruction whose effect is one register write leaves the value written there, and the rest as it was. -/
theorem exists_next_of_setReg {i : Instr} {u : State} {v : Word} (hx : exec i s = .next (u.setReg d v)) {n : Nat}
    (hv : v.toNat = n) : ∃ t, exec i s = .next t ∧ (t.reg d).toNat = n ∧ Frame [d] [] u t :=
  ⟨u.setReg d v, hx, by rw [reg_setReg, if_pos rfl, hv], frame_setReg u d v⟩

end Loads

/-- Settles O26: the value is two bytes joined, the upper one from the higher address in raw memory and from the first
call of a device. -/
theorem ldrLoadsAWord : Obligations.LdrLoadsAWord := by
  obtain ⟨⟨-, -, hrow, -⟩, -⟩ := decodeFollowsTheOpcodeMap
  refine ⟨hrow, fun rd ra s h => exec_of_not_wellFormed (i := .ldr rd ra) (regByteOk_and_eq_false h) s,
    fun d a s => ⟨exec_ldr_pastTop, fun ha hn => ?raw, fun e ha hm he => ?device, fun e ha hm he => ?silent⟩⟩
  case raw => exact exists_next_of_setReg (exec_ldr_of_noMatch d ha hn) (toNat_joinBytes _ _)
  case device => exact exists_next_of_setReg (exec_ldr_of_device ha hm he) (toNat_joinBytes _ _)
  case silent => exact exec_of_silent (.inl ⟨d, a, e, .inr ⟨rfl, ha⟩, hm, he⟩)

/-- Settles O27: the value is one byte zero-extended, and no address is past the top for it. -/
theorem ldrbLoadsAByte : Obligations.LdrbLoadsAByte := by
  obtain ⟨⟨-, -, -, hrow, -⟩, -⟩ := decodeFollowsTheOpcodeMap
  refine ⟨hrow, fun rd ra s h => exec_of_not_wellFormed (i := .ldrb rd ra) (regByteOk_and_eq_false h) s,
    fun d a s => ⟨fun hn => ?raw, fun e hm he => ?device, fun e hm he => ?silent⟩⟩
  case raw => exact exists_next_of_setReg (exec_ldrb_of_noMatch d hn) (toNat_zext16 _)
  case device => exact exists_next_of_setReg (exec_ldrb_of_device hm he) (toNat_zext16 _)
  case silent => exact exec_of_silent (.inl ⟨d, a, e, .inl rfl, hm, he⟩)

end Sys2Proof.Machine
end

section
/-! O28 to O32. The ten operations of spec/43_arithmetic.md: what the end of the common body of R82 leaves, with the
flags as the destination and without, and the two shapes of rule, without a precondition and with one. -/

namespace Sys2Proof.Machine

open Sys2Proof.Spec

/-! ## The end of the common body -/

/-- A result is written to the destination and to the flags, and nowhere else. -/
theorem frame_putResult (s : State) {d : RegIdx} (r : Word) {regs : List RegIdx} (hd : d ∈ regs) (hfl : flIdx ∈ regs) :
    Frame regs [] s (s.putResult d r) := by
  refine ⟨⟨fun i hi => ?_, fun a _ => byte_putResult s d r a, rfl, rfl, rfl, rfl⟩, rfl⟩
  have hne : ∀ j ∈ regs, j ≠ i := fun j hj hji => hi (hji ▸ hj)
  rw [reg_putResult s d i r (hne flIdx hfl), if_neg (hne d hd)]

/-- Z is written over the destination only where that is the flags, so any other keeps the whole result. -/
theorem aluEffect_putResult (s : State) {d : RegIdx} (hd : d ≠ flIdx) (r : Word) :
    AluEffect s (s.putResult d r) d r.toNat := by
  have hflags : (s.putResult d r).fl = withZ s.fl (zOfResult r) := by rw [fl_putResult, if_neg hd]
  refine ⟨?dest, ?zero, fun k hk => ?bits, frame_putResult s r (by simp) (by simp)⟩
  case dest => rw [reg_putResult s d d r hd.symm, if_pos rfl]
  case zero => rw [hflags, ← zOfResult_eq_true, ← zFlag, zFlag_withZ]
  case bits => rw [hflags, getLsbD_withZ _ _ _ hk]

/-- Law 6 of R82 (D19): in the flags, bit 0 of the result gives way to Z. -/
theorem toNat_fl_putResult_flIdx (s : State) (r : Word) :
    (s.putResult flIdx r).fl.toNat = if r.toNat = 0 then 1 else r.toNat / 2 * 2 := by
  rw [fl_putResult, if_pos rfl, toNat_withZ]
  simp only [zOfResult_eq_true]
  split
  · next h => rw [h]
  · rfl

theorem AluComputes.exists_aluEffect {mk : Byte → Byte → Byte → Instr} {f : Nat → Nat → Option Nat}
    (h : AluComputes mk f) {d a b : RegIdx} (hd : d ≠ flIdx) {s : State} {r : Nat}
    (hr : f (s.reg a).toNat (s.reg b).toNat = some r) :
    ∃ t, exec (mk (regByte d) (regByte a) (regByte b)) s = .next t ∧ AluEffect s t d r := by
  obtain ⟨w, hx, rfl⟩ := h d a b s r hr
  exact ⟨_, hx, aluEffect_putResult s hd w⟩

/-- Settles O32: with the flags as destination both writes of `putResult` fall on the same register. -/
theorem aluIntoTheFlagsRegister : Obligations.AluIntoTheFlagsRegister := fun p hp a b s r hr => by
  obtain ⟨w, hx, rfl⟩ := aluComputes_of_mem_aluOps p hp flIdx a b s r hr
  exact ⟨_, hx, toNat_fl_putResult_flIdx s w, frame_putResult s w (by simp) (by simp)⟩

/-! ## The two shapes of rule -/

/-- All three register bytes of each of the ten are checked (R52, R82 law 7). -/
theorem wellFormed_of_mem_aluOps : ∀ p ∈ aluOps, ∀ rd ra rb,
    (p.1 rd ra rb).wellFormed = (regByteOk rd && regByteOk ra && regByteOk rb) := by
  simp [aluOps, Instr.wellFormed]

section Rules

variable {k : Byte} {mk : Byte → Byte → Byte → Instr} {f : Nat → Nat → Nat}

theorem totalAluRule_of_mem_aluOps (hrow : RegsRow k mk) (hm : (mk, fun a b => some (f a b)) ∈ aluOps) :
    TotalAluRule k mk f := by
  refine ⟨hrow, fun rd ra rb s h => exec_of_not_wellFormed ?_ s, fun d a b s hd => ?_⟩
  · rw [wellFormed_of_mem_aluOps _ hm]
    simpa only [← Bool.not_eq_true, Bool.and_eq_true, regByteOk_iff_le, and_assoc] using h
  · exact (aluComputes_of_mem_aluOps _ hm).exists_aluEffect hd rfl

/-- A division: a result for every divisor but 0, which is fatal with the instruction's address (R86, R87). -/
theorem partialAluRule_of_divide {op : Word → Word → Word} (hrow : RegsRow k mk)
    (hm : (mk, fun a b => if b = 0 then none else some (f a b)) ∈ aluOps)
    (hx : ∀ rd ra rb s, exec (mk rd ra rb) s = aluBody (divideBy op s.instrAddr) rd ra rb s) :
    PartialAluRule k mk (fun b => b ≠ 0) (fun s => .divideByZero (s.ip - 4)) f := by
  refine ⟨hrow, fun d a b s => ⟨fun hb hd => ?_, fun hb => ?_⟩⟩
  · exact (aluComputes_of_mem_aluOps _ hm).exists_aluEffect hd (if_neg hb)
  · have hzero : s.reg b = 0 := BitVec.eq_of_toNat_eq (not_not.mp hb)
    exact (hx _ _ _ s).trans (aluBody_of_error (if_pos hzero))

/-- A shift: an amount of 16 or more has no result (R91, R92). -/
theorem partialAluRule_of_shift {op : Word → Nat → Word} (hrow : RegsRow k mk)
    (hm : (mk, fun a b => if b < 16 then some (f a b) else none) ∈ aluOps)
    (hx : ∀ rd ra rb s, exec (mk rd ra rb) s = aluBody (shiftBy op) rd ra rb s) :
    PartialAluRule k mk (fun b => b < 16) (fun _ => .shiftRange) f := by
  refine ⟨hrow, fun d a b s => ⟨fun hb hd => ?_, fun hb => ?_⟩⟩
  · exact (aluComputes_of_mem_aluOps _ hm).exists_aluEffect hd (if_pos hb)
  · exact (hx _ _ _ s).trans (aluBody_of_error (if_neg hb))

end Rules

/-- Settles O28: three rows of the opcode map (R57), with the results `aluOps` lists for them. -/
theorem addSubMulTruncateTo16Bits : Obligations.AddSubMulTruncateTo16Bits := by
  obtain ⟨⟨-, -, -, -, add, sub, mul, -⟩, -⟩ := decodeFollowsTheOpcodeMap
  exact ⟨totalAluRule_of_mem_aluOps add (by simp [aluOps]), totalAluRule_of_mem_aluOps sub (by simp [aluOps]),
    totalAluRule_of_mem_aluOps mul (by simp [aluOps])⟩

/-- Settles O29: as O28, on the three bitwise rows. -/
theorem bitwiseOperationsSetZ : Obligations.BitwiseOperationsSetZ := by
  obtain ⟨⟨-, -, -, -, -, -, -, -, -, and, or, xor, -⟩, -⟩ := decodeFollowsTheOpcodeMap
  exact ⟨totalAluRule_of_mem_aluOps and (by simp [aluOps]), totalAluRule_of_mem_aluOps or (by simp [aluOps]),
    totalAluRule_of_mem_aluOps xor (by simp [aluOps])⟩

/-- Settles O30: the remainder `aluOps` lists is what the quotient leaves (R87). -/
theorem divModAreUnsignedAndFatalOnZero : Obligations.DivModAreUnsignedAndFatalOnZero := by
  obtain ⟨⟨-, -, -, -, -, -, -, div, mod, -⟩, -⟩ := decodeFollowsTheOpcodeMap
  simp only [Obligations.DivModAreUnsignedAndFatalOnZero, ← Nat.mod_eq_sub_div_mul]
  exact ⟨partialAluRule_of_divide div (by simp [aluOps]) fun _ _ _ _ => rfl,
    partialAluRule_of_divide mod (by simp [aluOps]) fun _ _ _ _ => rfl⟩

/-- Settles O31: the whole 16-bit second source is the amount, in the shift and in its range check. -/
theorem shiftsByUpTo15 : Obligations.ShiftsByUpTo15 := by
  obtain ⟨⟨-, -, -, -, -, -, -, -, -, -, -, -, shl, shr, -⟩, -⟩ := decodeFollowsTheOpcodeMap
  exact ⟨partialAluRule_of_shift shl (by simp [aluOps]) fun _ _ _ _ => rfl,
    partialAluRule_of_shift shr (by simp [aluOps]) fun _ _ _ _ => rfl⟩

end Sys2Proof.Machine
end

section
/-! O33 to O35. The three jumps of spec/44_jumps.md: `jmp` and `jr` are one write of IP, and a `jz` taken writes IP and
then clears Z, so its frame is that of two register writes (R93 to R95). -/

namespace Sys2Proof.Machine

open Sys2Proof.Spec

/-! ## Rows and frames -/

/-- The jumps' three rows of the opcode map (R57). -/
theorem jump_rows : ImmRow 0x0E .jmp ∧ ImmRow 0x0F .jz ∧ RegRow 0x10 .jr := by
  obtain ⟨⟨-, -, -, -, -, -, -, -, -, -, -, -, -, -, jmp, jz, jr, -⟩, -⟩ := decodeFollowsTheOpcodeMap
  exact ⟨jmp, jz, jr⟩

/-- A write of a listed register stays within the frame. -/
theorem frame_setReg_of_mem {regs : List RegIdx} {addrs : List Word} {s t : State} (h : Frame regs addrs s t)
    {d : RegIdx} (hd : d ∈ regs) (v : Word) : Frame regs addrs s (t.setReg d v) := by
  obtain ⟨⟨hreg, hrest⟩, hcount⟩ := h
  refine ⟨⟨fun i hi => ?_, hrest⟩, hcount⟩
  rw [reg_setReg, if_neg (ne_of_mem_of_not_mem hd hi), hreg i hi]

theorem frame_refl (regs : List RegIdx) (addrs : List Word) (s : State) : Frame regs addrs s s :=
  ⟨⟨fun _ _ => rfl, fun _ _ => rfl, rfl, rfl, rfl, rfl⟩, rfl⟩

/-! ## `jmp` and `jr` -/

theorem exec_jmp_eq_setReg (imm : Word) (s : State) : exec (.jmp imm) s = .next (s.setReg ipIdx imm) := by
  rw [exec_jmp, execJmp]

theorem exec_jr_regByte (a : RegIdx) (s : State) :
    exec (.jr (regByte a)) s = .next (s.setReg ipIdx (s.reg a)) := by
  rw [exec_jr, execJr, withReg_regByte]

theorem exec_jr_of_gt {ra : Byte} (h : 31 < ra.toNat) (s : State) : exec (.jr ra) s = .fault .regIndexRange := by
  rw [exec_jr, execJr, withReg_of_ge (by omega)]

/-- An instruction whose effect is one write of IP leaves the target there, whatever its alignment, and the rest as it
was. -/
theorem exists_next_of_setReg_ipIdx {i : Instr} {s : State} {v : Word} (hx : exec i s = .next (s.setReg ipIdx v)) :
    ∃ t, exec i s = .next t ∧ t.ip = v ∧ Frame [ipIdx] [] s t :=
  ⟨s.setReg ipIdx v, hx, by rw [ip_setReg, if_pos rfl], frame_setReg s ipIdx v⟩

/-- Settles O33: the body is one write of IP. -/
theorem jmpWritesTheTarget : Obligations.JmpWritesTheTarget := by
  obtain ⟨hrow, -, -⟩ := jump_rows
  exact ⟨hrow, fun imm s => exists_next_of_setReg_ipIdx (exec_jmp_eq_setReg imm s)⟩

/-- Settles O35: the body is one write of IP, with what the register holds before it. -/
theorem jrWritesTheRegister : Obligations.JrWritesTheRegister := by
  obtain ⟨-, -, hrow⟩ := jump_rows
  exact ⟨hrow, fun _ s h => exec_jr_of_gt h s, fun a s => exists_next_of_setReg_ipIdx (exec_jr_regByte a s)⟩

/-! ## `jz` -/

section Jz

variable {s : State} (imm : Word)

theorem exec_jz_taken (hz : zFlag s.fl = true) :
    exec (.jz imm) s = .next ((s.setReg ipIdx imm).setZ false) := by
  rw [exec_jz, execJz, if_pos hz]

theorem exec_jz_not_taken (hz : zFlag s.fl = false) : exec (.jz imm) s = .next s := by
  rw [exec_jz, execJz, hz, if_neg Bool.false_ne_true]

theorem ip_jz_taken : ((s.setReg ipIdx imm).setZ false).ip = imm := by
  rw [State.ip, reg_setZ, if_neg flIdx_ne_ipIdx, reg_setReg, if_pos rfl]

theorem fl_jz_taken : ((s.setReg ipIdx imm).setZ false).fl = withZ s.fl false := by
  rw [fl_setZ, fl_setReg, if_neg ipIdx_ne_flIdx]

theorem frame_jz_taken : Frame [ipIdx, flIdx] [] s ((s.setReg ipIdx imm).setZ false) :=
  frame_setReg_of_mem (frame_setReg_of_mem (frame_refl _ _ s) (by simp) imm) (by simp) _

end Jz

theorem zFlag_eq_true {fl : Word} : zFlag fl = true ↔ fl.toNat % 2 = 1 := by
  rw [zFlag, BitVec.getLsbD, Nat.testBit_zero, decide_eq_true_iff]

/-- Clearing a set Z takes 1 from the flags, so no other bit of them changes. -/
theorem toNat_withZ_false {fl : Word} (hz : zFlag fl = true) : (withZ fl false).toNat = fl.toNat - 1 := by
  have hodd := zFlag_eq_true.mp hz
  rw [toNat_withZ, if_neg Bool.false_ne_true]
  omega

/-- Settles O34: Z is bit 0, and it decides between the two writes and none. -/
theorem jzJumpsOnZAndClearsIt : Obligations.JzJumpsOnZAndClearsIt := by
  obtain ⟨-, hrow, -⟩ := jump_rows
  refine ⟨hrow, fun imm s => ⟨fun hz => ?taken, fun hz => exec_jz_not_taken imm hz⟩⟩
  case taken =>
    refine ⟨_, exec_jz_taken imm hz, ip_jz_taken imm, ?_, frame_jz_taken imm⟩
    rw [fl_jz_taken, toNat_withZ_false hz]

end Sys2Proof.Machine
end

section
/-! O36 and O37. The four stores of spec/45_stores.md: each is one of the two write accesses, so what a store does is
said once per width, for any instruction that makes that access (R39, R96 to R99). -/

namespace Sys2Proof.Machine

open Sys2Proof.Spec

/-! ## Rows and frames -/

/-- The stores' four rows of the opcode map (R57). -/
theorem store_rows : RegImmRow 0x11 .sti ∧ RegImmRow 0x12 .stib ∧ RegRegRow 0x13 .str ∧ RegRegRow 0x14 .strb := by
  obtain ⟨⟨-, -, -, -, -, -, -, -, -, -, -, -, -, -, -, -, -, sti, stib, str, strb, -⟩, -⟩ := decodeFollowsTheOpcodeMap
  exact ⟨sti, stib, str, strb⟩

/-- The range check of a scheme with one register failed (R53, R55, R76). -/
theorem regByteOk_eq_false {b : Byte} (h : 31 < b.toNat) : regByteOk b = false := by
  rwa [← Bool.not_eq_true, regByteOk_iff_le, not_le]

/-- A raw write to a listed address stays within the frame. -/
theorem frame_setByte_of_mem {regs : List RegIdx} {addrs : List Word} {s t : State} (h : Frame regs addrs s t)
    {a : Word} (ha : a ∈ addrs) (b : Byte) : Frame regs addrs s (t.setByte a b) := by
  obtain ⟨⟨hreg, hbyte, hrest⟩, hcount⟩ := h
  refine ⟨⟨hreg, fun c hc => ?_, hrest⟩, hcount⟩
  rw [byte_setByte, if_neg (ne_of_mem_of_not_mem ha hc).symm, hbyte c hc]

theorem frame_setByte (s : State) (a : Word) (b : Byte) : Frame [] [a] s (s.setByte a b) :=
  frame_setByte_of_mem (frame_refl _ _ s) (by simp) b

theorem frame_setRawWord (s : State) (a v : Word) : Frame [] [a, a + 1] s (s.setRawWord a v) :=
  frame_setByte_of_mem (frame_setByte_of_mem (frame_refl _ _ s) (by simp) _) (by simp) _

/-! ## Device writes -/

theorem devWrite_eq_afterWrite (e : MmioEntry) (addr : Word) (b : Byte) (s : State) :
    devWrite e addr b s = afterWrite e addr b s := by
  rw [devWrite, afterWrite]

/-- The high byte goes to the lower address, the reverse of raw memory (R39, R41). -/
theorem devWrite16_eq_afterWrite (e : MmioEntry) (addr v : Word) (s : State) :
    devWrite16 e addr v s = afterWrite e (addr + 1) (BitVec.ofNat 8 (v.toNat % 256))
      (afterWrite e addr (BitVec.ofNat 8 (v.toNat / 256)) s) := by
  rw [devWrite16, devWrite_eq_afterWrite, devWrite_eq_afterWrite, ofNat_mod_eq_lowByte, ofNat_div_eq_highByte]

/-! ## The two widths -/

section Widths

variable {i : Instr} {addr v : Word} {s : State}

theorem wordStoreEffect_of_memWrite16 (hx : exec i s = resultOf (memWrite16 addr v s)) :
    WordStoreEffect i addr v s := by
  refine ⟨fun ha => ?pastTop, fun ha hn => ?raw, fun e ha hm he => ?device, fun e ha hm he => ?silent⟩
  case pastTop => rw [hx, memWrite16_eq_error.mpr ⟨ha, rfl⟩]; rfl
  case raw =>
    refine ⟨s.setRawWord addr v, by rw [hx, memWrite16_of_noMatch ha hn]; rfl, ?_, ?_, frame_setRawWord s addr v⟩
    · rw [byte_setRawWord_low, toNat_lowByte]
    · rw [byte_setRawWord_high, toNat_highByte]
  case device => rw [hx, memWrite16_of_device ha hm he, devWrite16_eq_afterWrite]; rfl
  case silent => rw [hx, memWrite16_of_silent ha hm he]; rfl

theorem byteStoreEffect_of_memWrite8 (hx : exec i s = .next (memWrite8 addr v s)) : ByteStoreEffect i addr v s := by
  refine ⟨fun hn => ?raw, fun e hm he => ?device, fun e hm he => ?silent⟩
  case raw =>
    refine ⟨s.setByte addr (lowByte v), by rw [hx, memWrite8_of_noMatch hn], ?_, frame_setByte s addr _⟩
    rw [byte_setByte, if_pos rfl, toNat_lowByte]
  case device => rw [hx, memWrite8_of_device hm he, devWrite_eq_afterWrite, ofNat_mod_eq_lowByte]
  case silent => rw [hx, memWrite8_of_silent hm he]

end Widths

/-- Settles O36: `sti` and `str` are the 16-bit write access, at the immediate and at the address register's value. -/
theorem wordStoresKeepTheByteOrderAsymmetry : Obligations.WordStoresKeepTheByteOrderAsymmetry := by
  obtain ⟨sti, -, str, -⟩ := store_rows
  exact ⟨⟨sti, str⟩,
    fun rs imm s h => exec_of_not_wellFormed (i := .sti rs imm) (regByteOk_eq_false h) s,
    fun rs ra s h => exec_of_not_wellFormed (i := .str rs ra) (regByteOk_and_eq_false h) s,
    fun r imm s => wordStoreEffect_of_memWrite16 (exec_sti_regByte r imm s),
    fun r a s => wordStoreEffect_of_memWrite16 (exec_str_regByte r a s)⟩

/-- Settles O37: `stib` and `strb` are the 8-bit write access, at the immediate and at the address register's value. -/
theorem byteStoresWriteTheLowByte : Obligations.ByteStoresWriteTheLowByte := by
  obtain ⟨-, stib, -, strb⟩ := store_rows
  exact ⟨⟨stib, strb⟩,
    fun rs imm s h => exec_of_not_wellFormed (i := .stib rs imm) (regByteOk_eq_false h) s,
    fun rs ra s h => exec_of_not_wellFormed (i := .strb rs ra) (regByteOk_and_eq_false h) s,
    fun r imm s => byteStoreEffect_of_memWrite8 (exec_stib_regByte r imm s),
    fun r a s => byteStoreEffect_of_memWrite8 (exec_strb_regByte r a s)⟩

end Sys2Proof.Machine
end

section
/-! O38. A `sys` with a registered number is one callback, and what a callback writes into the core is read one write at
a time through the two ports: the last write listed for a key is the one that stays (R49, R100). -/

namespace Sys2Proof.Machine

open Sys2Proof.Spec

/-! ## Writes done in order -/

/-- Reading `port` after `update` gives the written value at the key written, and the old one at every other key. -/
structure ReadsBack {κ β : Type} (port : State → κ → β) (update : State → κ → β → State) : Prop where
  same (s : State) (k : κ) (v : β) : port (update s k v) k = v
  other (s : State) {k j : κ} (v : β) (h : k ≠ j) : port (update s k v) j = port s j

/-- The listed writes, done in order by `update`. -/
def writeAll {κ β : Type} (update : State → κ → β → State) (ws : List (κ × β)) (s : State) : State :=
  ws.foldl (fun u w => update u w.1 w.2) s

theorem readsBack_setReg : ReadsBack State.reg State.setReg where
  same _ _ _ := by rw [reg_setReg, if_pos rfl]
  other _ _ _ _ h := by rw [reg_setReg, if_neg h]

theorem readsBack_setByte : ReadsBack State.byte State.setByte where
  same _ _ _ := by rw [byte_setByte, if_pos rfl]
  other _ _ _ _ h := by rw [byte_setByte, if_neg h.symm]

section WriteAll

variable {κ β : Type} {port : State → κ → β} {update : State → κ → β → State}

theorem ReadsBack.writeAll_of_not_listed (h : ReadsBack port update) {ws : List (κ × β)} {j : κ}
    (hj : ∀ v, (j, v) ∉ ws) (s : State) : port (writeAll update ws s) j = port s j := by
  induction ws generalizing s with
  | nil => rfl
  | cons w rest ih =>
    have hw : w.1 ≠ j := fun hwj => hj w.2 (hwj ▸ List.mem_cons_self)
    calc port (writeAll update rest (update s w.1 w.2)) j
      _ = port (update s w.1 w.2) j := ih (fun v hv => hj v (List.mem_cons_of_mem _ hv)) _
      _ = port s j := h.other s w.2 hw

/-- Later writes leave the key alone, so what was written to it last is what it holds. -/
theorem ReadsBack.writeAll_of_last_listed (h : ReadsBack port update) {ws before later : List (κ × β)} {j : κ} {v : β}
    (hws : ws = before ++ (j, v) :: later) (hj : ∀ u, (j, u) ∉ later) (s : State) :
    port (writeAll update ws s) j = v := by
  rw [hws, writeAll, List.foldl_append, List.foldl_cons]
  exact (h.writeAll_of_not_listed hj _).trans (h.same _ j v)

end WriteAll

/-! ## What a callback leaves in the ports -/

theorem applyRegWrites_eq_writeAll (ws : List (RegIdx × Word)) (s : State) :
    applyRegWrites s.x ws = (writeAll State.setReg ws s).x := by
  induction ws generalizing s with
  | nil => rfl
  | cons w rest ih => exact ih (s.setReg w.1 w.2)

theorem applyMemWrites_eq_writeAll (ws : List (Word × Byte)) (s : State) :
    applyMemWrites s.mem ws = (writeAll State.setByte ws s).mem := by
  induction ws generalizing s with
  | nil => rfl
  | cons w rest ih => exact ih (s.setByte w.1 w.2)

section CallHost

variable (c : HostCall) (s : State)

theorem reg_callHost (j : RegIdx) :
    (callHost c s).2.reg j = (writeAll State.setReg (s.hostAnswer c).writes.regWrites s).reg j := by
  rw [State.reg, callHost_x, applyRegWrites_eq_writeAll, State.reg]

theorem byte_callHost (a : Word) :
    (callHost c s).2.byte a = (writeAll State.setByte (s.hostAnswer c).writes.memWrites s).byte a := by
  rw [State.byte, callHost_mem, applyMemWrites_eq_writeAll, State.byte]

theorem callHost_icount : (callHost c s).2.icount = (s.hostAnswer c).writes.setIcount.getD s.icount := rfl

end CallHost

/-! ## `sys` -/

theorem exec_sys_of_lt {s : State} (h : (s.reg r0).toNat < s.numSyscalls) :
    exec .sys s = .next (callHost (.syscall (s.reg r0)) s).2 := by
  rw [exec_sys, execSys, if_pos h]

/-- Settles O38: the next state is what the one callback leaves, read through the ports. -/
theorem sysCallsTheHandler : Obligations.SysCallsTheHandler := by
  refine ⟨noneRow_of_assembleFields .sys (fun _ => rfl) rfl, fun s hn => ?_⟩
  refine ⟨_, exec_sys_of_lt hn, callHost_hostCalls _ s, callHost_hostAnswers _ s, callHost_mmioTable _ s,
    callHost_numSyscalls _ s, fun hquiet => ?quiet, callHost_icount _ s, fun j v before later hws hj => ?lastReg,
    fun a b before later hws ha => ?lastByte, fun j hj => ?otherReg, fun a ha => ?otherByte⟩
  case quiet => rw [callHost_of_quiet _ s hquiet]; exact frame_refl [] [] (s.recordCall _)
  case lastReg => rw [reg_callHost]; exact readsBack_setReg.writeAll_of_last_listed hws hj s
  case lastByte => rw [byte_callHost]; exact readsBack_setByte.writeAll_of_last_listed hws ha s
  case otherReg => rw [reg_callHost]; exact readsBack_setReg.writeAll_of_not_listed hj s
  case otherByte => rw [byte_callHost]; exact readsBack_setByte.writeAll_of_not_listed ha s

end Sys2Proof.Machine
end

section
/-! O6, O7 and O8. Both traps are `takeTrap`: one write of the flags that sets a bit, so a trapped core traps again at the
same IP, and that changes nothing more (R102, R103, R111). -/

namespace Sys2Proof.Machine

open Sys2Proof.Spec

section Trapped

variable {s : State} (k : TrapKind)

@[simp] theorem aligned_takeTrap : (takeTrap k s).aligned = s.aligned := by
  rw [State.aligned, ip_takeTrap, State.aligned]

@[simp] theorem fetch_takeTrap : (takeTrap k s).fetch = s.fetch :=
  fetch_congr (ip_takeTrap s k) (takeTrap_mem s k)

theorem fl_takeTrap : (takeTrap k s).fl = withHalt s.fl := by
  rw [takeTrap_eq, fl_setReg, if_pos rfl]

/-- A second trap, of either kind, finds the flag already set. -/
theorem takeTrap_takeTrap (j : TrapKind) : takeTrap j (takeTrap k s) = takeTrap k s := by
  rw [takeTrap_eq, fl_takeTrap, withHalt_withHalt, takeTrap_eq, setReg_setReg]

/-- What a step that traps leaves, whichever trap it is (R110). -/
theorem exists_next_of_trap (h : s.aligned = false ∨ decode s.fetch = .invalid) :
    ∃ t, step s = .next t ∧ t.fl.toNat = s.fl.toNat ||| 0x80 ∧ Frame [flIdx] [] s t := by
  obtain ⟨k, hk⟩ := step_eq_takeTrap h
  exact ⟨takeTrap k s, hk, by rw [fl_takeTrap, toNat_withHalt], frame_setReg s flIdx _⟩

end Trapped

/-- Settles O6: the alignment check alone decides. -/
theorem unalignedPointerTraps : Obligations.UnalignedPointerTraps := fun _ ha =>
  exists_next_of_trap (.inl (aligned_eq_false.mpr ha))

/-- Settles O7: the opcode byte alone decides, whatever the three after it. -/
theorem invalidOpcodeTraps : Obligations.InvalidOpcodeTraps := fun _ _ ho =>
  exists_next_of_trap (.inr (decode_eq_invalid ho))

/-- Settles O8: a trap keeps IP and memory, so the cause of the trap is still there at the next step. -/
theorem trappedCoreIsStable : Obligations.TrappedCoreIsStable := by
  intro s t htrap hstep
  obtain ⟨k, hk⟩ := step_eq_takeTrap htrap
  obtain rfl : takeTrap k s = t := Host.Outcome.next.inj (hk.symm.trans hstep)
  obtain ⟨j, hj⟩ := step_eq_takeTrap (s := takeTrap k s) (by rwa [aligned_takeTrap, fetch_takeTrap])
  rw [takeTrap_takeTrap] at hj
  exact ⟨hj, haltFlag_takeTrap k, fun n => run_of_haltFlag (haltFlag_takeTrap k) n⟩

end Sys2Proof.Machine
end

section
/-! O10 and O39. Which instruction faults, and with what, once `decode` has passed its register bytes: the operations
with a precondition on the second source, the three 16-bit accesses, and `sys` (R101, R105 to R107). -/

namespace Sys2Proof.Machine

open Sys2Proof.Spec

theorem wellFormed_of_decode {w : InstrBytes} {i : Instr} (h : decode w = .instr i) : i.wellFormed = true := by
  obtain ⟨_, -, -, hw⟩ := decode_eq_instr h
  exact hw

/-! ## Operands in range -/

section InRange

variable {b c : Byte}

theorem exists_regByte_of_ok (h : regByteOk b = true) : ∃ i, b = regByte i :=
  exists_regByte ((regByteOk_eq_true b).mp h)

theorem exists_regByte_pair_of_ok (h : (regByteOk b && regByteOk c) = true) :
    ∃ i j, b = regByte i ∧ c = regByte j := by
  obtain ⟨hb, hc⟩ := Bool.and_eq_true_iff.mp h
  obtain ⟨i, hi⟩ := exists_regByte_of_ok hb
  obtain ⟨j, hj⟩ := exists_regByte_of_ok hc
  exact ⟨i, j, hi, hj⟩

/-- Naming the register a byte names again is naming the same one. -/
theorem exists_regByte_eq_and {j : RegIdx} {P : RegIdx → Prop} : (∃ i, regByte j = regByte i ∧ P i) ↔ P j := by
  simp [regByte_injective]

end InRange

/-! ## The bodies that can fault -/

section Faults

variable {rd ra rb rs : Byte} {imm : Word} {s : State} {f : Fault}

/-- What is done with a value raises nothing. -/
theorem resultOf_map_eq_fault {α : Type} {r : Except Fault α} {g : α → State} :
    resultOf (r.map g) = .fault f ↔ r = .error f := by
  rw [resultOf_eq_fault]
  cases r <;> simp [Except.map]

/-- An operation whose precondition is one on its second source faults as that says, and no other way (R82). -/
theorem aluBody_eq_fault_iff {op : Word → Word → Except Fault Word} {fails : Word → Prop} {e : Fault}
    (hw : (regByteOk rd && regByteOk ra && regByteOk rb) = true)
    (hop : ∀ a b, op a b = .error f ↔ fails b ∧ f = e) :
    aluBody op rd ra rb s = .fault f ↔ ∃ b, rb = regByte b ∧ fails (s.reg b) ∧ f = e := by
  obtain ⟨hda, hb⟩ := Bool.and_eq_true_iff.mp hw
  obtain ⟨d, a, rfl, rfl⟩ := exists_regByte_pair_of_ok hda
  obtain ⟨b, rfl⟩ := exists_regByte_of_ok hb
  rw [aluBody_regByte, resultOf_map_eq_fault, exists_regByte_eq_and, hop]

/-- An operation without a precondition does not fault. -/
theorem aluBody_ok_ne_fault {op : Word → Word → Word} (hw : (regByteOk rd && regByteOk ra && regByteOk rb) = true) :
    aluBody (fun a b => .ok (op a b)) rd ra rb s ≠ .fault f := by
  intro h
  obtain ⟨_, -, ⟨⟩, -⟩ := (aluBody_eq_fault_iff (fails := fun _ => False) (e := f) hw (by simp)).mp h

theorem divideBy_eq_error {op : Word → Word → Word} {at_ : Word} (a b : Word) :
    divideBy op at_ a b = .error f ↔ b = 0 ∧ f = .divideByZero at_ := by
  unfold divideBy
  split
  · next h => simp [h, eq_comm]
  · next h => exact ⟨nofun, fun ⟨hb, _⟩ => absurd hb h⟩

theorem shiftBy_eq_error {op : Word → Nat → Word} (a b : Word) :
    shiftBy op a b = .error f ↔ 16 ≤ b.toNat ∧ f = .shiftRange := by
  unfold shiftBy
  split
  · next h => exact ⟨nofun, fun ⟨hge, _⟩ => absurd h (Nat.not_lt.mpr hge)⟩
  · next h => simp [Nat.not_lt.mp h, eq_comm]

theorem exec_ldr_eq_fault_iff (hw : (regByteOk rd && regByteOk ra) = true) :
    exec (.ldr rd ra) s = .fault f ↔ ∃ a, ra = regByte a ∧ s.reg a = 0xFFFF ∧ f = .accessPastTop := by
  obtain ⟨d, a, rfl, rfl⟩ := exists_regByte_pair_of_ok hw
  rw [exec_ldr_regByte, resultOf_map_eq_fault, exists_regByte_eq_and, memRead16_eq_error]

theorem exec_str_eq_fault_iff (hw : (regByteOk rs && regByteOk ra) = true) :
    exec (.str rs ra) s = .fault f ↔ ∃ a, ra = regByte a ∧ s.reg a = 0xFFFF ∧ f = .accessPastTop := by
  obtain ⟨r, a, rfl, rfl⟩ := exists_regByte_pair_of_ok hw
  rw [exec_str_regByte, resultOf_eq_fault, exists_regByte_eq_and, memWrite16_eq_error]

theorem exec_sti_eq_fault_iff (hw : regByteOk rs = true) :
    exec (.sti rs imm) s = .fault f ↔ imm = 0xFFFF ∧ f = .accessPastTop := by
  obtain ⟨r, rfl⟩ := exists_regByte_of_ok hw
  rw [exec_sti_regByte, resultOf_eq_fault, memWrite16_eq_error]

theorem exec_sys_eq_fault_iff :
    exec .sys s = .fault f ↔ s.numSyscalls ≤ (s.reg r0).toNat ∧ f = .badSyscall (s.reg r0) s.instrAddr := by
  rw [exec_sys, execSys]
  split
  · next h => exact ⟨nofun, fun ⟨hge, _⟩ => absurd h (Nat.not_lt.mpr hge)⟩
  · next h => simp [Nat.not_lt.mp h, eq_comm]

end Faults

/-! ## The step -/

theorem step_ne_refused (s : State) (r : Refusal) : step s ≠ .refused r := by
  unfold step
  split
  · split
    · simp
    · simp
    · exact exec_ne_refused _ _ r
  · simp

section Causes

variable {s : State} {f : Fault}

/-- The body of a decoded instruction faults only where R105 to R107 say. -/
theorem faultCause_of_exec {i : Instr} (ha : s.aligned = true) (hd : decode s.fetch = .instr i)
    (h : exec i s.dispatched = .fault f) : FaultCause s f := by
  have hw := wellFormed_of_decode hd
  cases i with
  | nop | jmp => cases h
  | jz => rw [exec_jz, execJz] at h; split at h <;> cases h
  | ldi => obtain ⟨d, rfl⟩ := exists_regByte_of_ok hw; rw [exec_ldi_regByte] at h; cases h
  | jr => obtain ⟨a, rfl⟩ := exists_regByte_of_ok hw; rw [exec_jr_regByte] at h; cases h
  | stib => obtain ⟨r, rfl⟩ := exists_regByte_of_ok hw; rw [exec_stib_regByte] at h; cases h
  | ldrb => obtain ⟨d, a, rfl, rfl⟩ := exists_regByte_pair_of_ok hw; rw [exec_ldrb_regByte] at h; cases h
  | strb => obtain ⟨r, a, rfl, rfl⟩ := exists_regByte_pair_of_ok hw; rw [exec_strb_regByte] at h; cases h
  | add | sub | mul | and | or | xor => exact absurd h (aluBody_ok_ne_fault hw)
  | div rd ra =>
    obtain ⟨b, rfl, hb, rfl⟩ := (aluBody_eq_fault_iff hw divideBy_eq_error).mp h
    exact ⟨ha, instrAddr_dispatched s, rd, ra, b, .inl hd, hb⟩
  | mod rd ra =>
    obtain ⟨b, rfl, hb, rfl⟩ := (aluBody_eq_fault_iff hw divideBy_eq_error).mp h
    exact ⟨ha, instrAddr_dispatched s, rd, ra, b, .inr hd, hb⟩
  | shl rd ra =>
    obtain ⟨b, rfl, hb, rfl⟩ := (aluBody_eq_fault_iff hw shiftBy_eq_error).mp h
    exact ⟨ha, rd, ra, b, .inl hd, hb⟩
  | shr rd ra =>
    obtain ⟨b, rfl, hb, rfl⟩ := (aluBody_eq_fault_iff hw shiftBy_eq_error).mp h
    exact ⟨ha, rd, ra, b, .inr hd, hb⟩
  | ldr rd =>
    obtain ⟨a, rfl, hr, rfl⟩ := (exec_ldr_eq_fault_iff hw).mp h
    exact ⟨ha, .inr ⟨rd, a, .inl hd, hr⟩⟩
  | str rs =>
    obtain ⟨a, rfl, hr, rfl⟩ := (exec_str_eq_fault_iff hw).mp h
    exact ⟨ha, .inr ⟨rs, a, .inr hd, hr⟩⟩
  | sti rs =>
    obtain ⟨rfl, rfl⟩ := (exec_sti_eq_fault_iff hw).mp h
    exact ⟨ha, .inl ⟨rs, hd⟩⟩
  | sys =>
    obtain ⟨hn, rfl⟩ := exec_sys_eq_fault_iff.mp h
    exact ⟨ha, instrAddr_dispatched s, hd, rfl, hn⟩

/-- A trap is no fault, so a step that faults has passed the alignment and the opcode check (R109). -/
theorem faultCause_of_step (h : step s = .fault f) : FaultCause s f := by
  unfold step at h
  split at h
  · next ha =>
    split at h
    · cases h
    · next hd => cases h; exact ⟨ha, hd⟩
    · next i hd => exact faultCause_of_exec ha hd h
  · cases h

/-- Each cause of R101 and R107 makes the step fault. -/
theorem step_of_faultCause (h : FaultCause s f) : step s = .fault f := by
  cases f with
  | regIndexRange =>
    obtain ⟨ha, hd⟩ := h
    exact step_of_badReg ha hd
  | divideByZero =>
    obtain ⟨ha, rfl, rd, ra, b, hd | hd, hb⟩ := h <;> rw [step_eq_exec ha hd] <;>
      exact (aluBody_eq_fault_iff (wellFormed_of_decode hd) divideBy_eq_error).mpr
        ⟨b, rfl, hb, by rw [instrAddr_dispatched]⟩
  | badSyscall =>
    obtain ⟨ha, rfl, hd, rfl, hn⟩ := h
    rw [step_eq_exec ha hd]
    exact exec_sys_eq_fault_iff.mpr ⟨hn, by rw [instrAddr_dispatched]⟩
  | shiftRange =>
    obtain ⟨ha, rd, ra, b, hd | hd, hb⟩ := h <;> rw [step_eq_exec ha hd] <;>
      exact (aluBody_eq_fault_iff (wellFormed_of_decode hd) shiftBy_eq_error).mpr ⟨b, rfl, hb, rfl⟩
  | accessPastTop =>
    obtain ⟨ha, ⟨r, hd⟩ | ⟨r, a, hd | hd, hr⟩⟩ := h <;> rw [step_eq_exec ha hd]
    · exact (exec_sti_eq_fault_iff (wellFormed_of_decode hd)).mpr ⟨rfl, rfl⟩
    · exact (exec_ldr_eq_fault_iff (wellFormed_of_decode hd)).mpr ⟨a, rfl, hr, rfl⟩
    · exact (exec_str_eq_fault_iff (wellFormed_of_decode hd)).mpr ⟨a, rfl, hr, rfl⟩

end Causes

/-- Settles O10: no arm refuses, and the two directions are read off one `↔` per body that can fault. -/
theorem stepFaultsExactlyWhereTheSpecSays : Obligations.StepFaultsExactlyWhereTheSpecSays := fun s =>
  ⟨step_ne_refused s, fun _ => ⟨faultCause_of_step, step_of_faultCause⟩⟩

/-- Settles O39: one of the causes of O10, the advance leaving register 0 alone. -/
theorem sysWithABadIndexIsFatal : Obligations.SysWithABadIndexIsFatal := by
  intro s ha hd hn
  have hr : s.dispatched.reg r0 = s.reg r0 := by rw [reg_dispatched, if_neg (by decide)]
  exact step_of_faultCause ⟨ha, rfl, hd, hr.symm, hn⟩

end Sys2Proof.Machine
end

section
/-! O14 and O44 to O47. The host's side of 70_reset_and_hazards.md: construction, reset, the image load, and the boot
sequence as these three with the registration of the table between them (R117 to R121). -/

namespace Sys2Proof.Machine

open Sys2Proof.Spec

/-- Settles O14: nothing is listed. -/
theorem resetMeetsTheInvariant : Obligations.ResetMeetsTheInvariant := Memory.wf_nil

theorem sameExcept_trans {r r' : List RegIdx} {a a' : List Word} {s t u : State} (h : SameExcept r a s t)
    (h' : SameExcept r' a' t u) : SameExcept (r ++ r') (a ++ a') s u := by
  obtain ⟨hreg, hbyte, hm, hn, ha, hc⟩ := h
  obtain ⟨hreg', hbyte', hm', hn', ha', hc'⟩ := h'
  refine ⟨fun i hi => ?_, fun b hb => ?_, hm'.trans hm, hn'.trans hn, ha'.trans ha, hc'.trans hc⟩
  · rw [List.mem_append, not_or] at hi
    rw [hreg' i hi.2, hreg i hi.1]
  · rw [List.mem_append, not_or] at hb
    rw [hbyte' b hb.2, hbyte b hb.1]

/-! ## Construction and reset -/

@[simp] theorem reg_constructed (n : Nat) (i : RegIdx) : (constructed n).reg i = 0 := by
  simp [State.reg, constructed]

theorem sameExcept_hostReset (s : State) : SameExcept [ipIdx, spIdx, flIdx] [] s (hostReset s) :=
  sameExcept_trans (sameExcept_trans (sameExcept_setReg s ipIdx _) (sameExcept_setReg _ spIdx _))
    (sameExcept_setReg _ flIdx 0)

/-- The counter aside, reset is three register writes. -/
theorem reg_hostReset (s : State) (i : RegIdx) : (hostReset s).reg i =
    (((s.setReg ipIdx Config.codeOrigin).setReg spIdx Config.stackOrigin).setReg flIdx 0).reg i := rfl

theorem ip_hostReset (s : State) : (hostReset s).ip = 0x0000 := by
  simp [State.ip, reg_hostReset, Config.codeOrigin]

theorem sp_hostReset (s : State) : (hostReset s).sp = 0x4000 := by
  simp [State.sp, reg_hostReset, Config.stackOrigin]

theorem fl_hostReset (s : State) : (hostReset s).fl = 0x0000 := by
  simp [State.fl, reg_hostReset]

/-- Settles O45: three register writes and the counter, with the frame of the three. -/
theorem resetWritesFourItems : Obligations.ResetWritesFourItems := fun s =>
  ⟨ip_hostReset s, sp_hostReset s, fl_hostReset s, rfl, sameExcept_hostReset s⟩

/-- Settles O44: no register is written in a constructed core, nothing is listed in its memory, and its reset is a fixed
state. -/
theorem constructionZeroesAndResetFollows : Obligations.ConstructionZeroesAndResetFollows :=
  ⟨fun n => ⟨reg_constructed n, fun _ => rfl, rfl, rfl, rfl⟩, rfl⟩

/-! ## The image load -/

section Load

variable {s t : State} {bytes : List Byte} {at_ : Word}

/-- `s` with the image in raw memory. -/
def State.withImage (s : State) (bytes : List Byte) (at_ : Word) : State :=
  { s with mem := Memory.writeBytes s.mem at_.toNat bytes }

theorem byte_withImage (a : Word) : (s.withImage bytes at_).byte a =
    if at_.toNat ≤ a.toNat then (bytes[a.toNat - at_.toNat]?).getD (s.byte a) else s.byte a :=
  Memory.read_writeBytes bytes s.mem at_.toNat a.toNat

theorem loadImage_of_tooLarge (h : 65536 < bytes.length) : loadImage s bytes at_ = .error .imageTooLarge :=
  if_pos h

theorem loadImage_of_pastTop (hlen : bytes.length ≤ 65536) (htop : 65536 < at_.toNat + bytes.length) :
    loadImage s bytes at_ = .error .imagePastTop := by
  rw [loadImage, Config.memSize, if_neg (Nat.not_lt.mpr hlen), if_pos htop]

theorem loadImage_of_fits (h : at_.toNat + bytes.length ≤ 65536) :
    loadImage s bytes at_ = .ok (s.withImage bytes at_) := by
  have hlen : bytes.length ≤ 65536 := by omega
  rw [loadImage, Config.memSize, if_neg (Nat.not_lt.mpr hlen), if_neg (Nat.not_lt.mpr h), State.withImage]

/-- A load that succeeds is of an image that fits. -/
theorem loadImage_eq_ok (h : loadImage s bytes at_ = .ok t) :
    at_.toNat + bytes.length ≤ 65536 ∧ t = s.withImage bytes at_ := by
  have hfits : at_.toNat + bytes.length ≤ 65536 := by
    by_contra htop
    by_cases hlen : bytes.length ≤ 65536
    · rw [loadImage_of_pastTop hlen (by omega)] at h; cases h
    · rw [loadImage_of_tooLarge (by omega)] at h; cases h
  rw [loadImage_of_fits hfits] at h
  cases h
  exact ⟨hfits, rfl⟩

end Load

/-- Settles O46: the two size tests of `loadImage`, and otherwise the image written at its address. -/
theorem loadCopiesTheImage : Obligations.LoadCopiesTheImage := fun s bytes at_ =>
  ⟨loadImage_of_tooLarge, loadImage_of_pastTop, fun h =>
    ⟨s.withImage bytes at_, loadImage_of_fits h, rfl, byte_withImage, fun _ => rfl, rfl, rfl, rfl, rfl⟩⟩

/-! ## The boot sequence -/

theorem bind_eq_ok {α β : Type} {r : Except HostError α} {k : α → Except HostError β} {b : β}
    (h : r.bind k = .ok b) : ∃ a, r = .ok a ∧ k a = .ok b := by
  cases r with
  | ok a => exact ⟨a, rfl, h⟩
  | error => cases h

theorem map_eq_ok {α β : Type} {r : Except HostError α} {g : α → β} {b : β} (h : r.map g = .ok b) :
    ∃ a, r = .ok a ∧ b = g a := by
  cases r with
  | ok a => cases h; exact ⟨a, rfl, rfl⟩
  | error => cases h

theorem construct_eq_ok {n : Nat} {s : State} (h : construct n = .ok s) : s = constructed n := by
  rw [construct] at h
  split at h <;> cases h
  rfl

theorem registerMmio_eq_ok {s t : State} {e : MmioEntry} (h : registerMmio s e = .ok t) :
    t = { s with mmioTable := s.mmioTable ++ [e] } := by
  rw [registerMmio] at h
  split at h <;> cases h
  rfl

/-- Registration appends, entry by entry, so the table keeps the order given (R32). -/
theorem registerAll_eq_ok {es : List MmioEntry} {s t : State} (h : registerAll s es = .ok t) :
    t = { s with mmioTable := s.mmioTable ++ es } := by
  induction es generalizing s with
  | nil => cases h; rw [List.append_nil]
  | cons e rest ih =>
    obtain ⟨u, hu, hrest⟩ := bind_eq_ok h
    obtain rfl := registerMmio_eq_ok hu
    rw [ih hrest, List.append_assoc, List.singleton_append]

/-- The core between the load and the reset of R121. -/
def loadedCore (n : Nat) (entries : List MmioEntry) (image : List Byte) : State :=
  { constructed n with mmioTable := entries }.withImage image Config.codeOrigin

section Boot

variable {n : Nat} {entries : List MmioEntry} {image : List Byte}

theorem reg_loadedCore (i : RegIdx) : (loadedCore n entries image).reg i = 0 :=
  reg_constructed n i

theorem byte_loadedCore (a : Word) : (loadedCore n entries image).byte a = (image[a.toNat]?).getD 0 :=
  (byte_withImage a).trans (if_pos (Nat.zero_le _))

theorem boot_eq_ok {s : State} (h : boot n entries image = .ok s) :
    image.length ≤ 65536 ∧ s = hostReset (loadedCore n entries image) := by
  obtain ⟨_, hc, h⟩ := bind_eq_ok h
  obtain rfl := construct_eq_ok hc
  obtain ⟨_, hr, h⟩ := bind_eq_ok h
  obtain rfl := registerAll_eq_ok hr
  obtain ⟨_, hl, rfl⟩ := map_eq_ok h
  obtain ⟨hfits, rfl⟩ := loadImage_eq_ok hl
  exact ⟨by simpa [Config.codeOrigin] using hfits, rfl⟩

end Boot

/-- Settles O47: what is loaded on a constructed core, with the three registers of reset over it. -/
theorem bootGivesTheLaunchPremises : Obligations.BootGivesTheLaunchPremises := by
  intro n entries image s h
  obtain ⟨hlen, rfl⟩ := boot_eq_ok h
  refine ⟨fun i => ?reg, rfl, byte_loadedCore, rfl, rfl, rfl, hlen⟩
  case reg =>
    by_cases hsp : i = spIdx
    · rw [hsp, if_pos rfl]
      exact sp_hostReset _
    · simp [reg_hostReset, reg_loadedCore, Config.codeOrigin, hsp, Ne.symm hsp]

end Sys2Proof.Machine
end

section
/-! O49. The program that ends itself: `ldi` with register 31 as its destination (R122). -/

namespace Sys2Proof.Machine

open Sys2Proof.Spec

theorem step_ldi_regByte {s : State} {d : RegIdx} {imm : Word} (ha : s.aligned = true)
    (hd : decode s.fetch = .instr (.ldi (regByte d) imm)) : step s = .next (s.dispatched.setReg d imm) := by
  rw [step_eq_exec ha hd, exec_ldi_regByte]

/-- Settles O49: the step writes IP, the count and the flags, and the loop's next test sees HALT. -/
theorem ldiToFlagsEndsTheProgram : Obligations.LdiToFlagsEndsTheProgram := by
  intro k s hclear ha hf
  have hd : decode s.fetch = .instr (.ldi (regByte flIdx) 0x0080) := by rw [hf]; decide
  have hfl : (s.dispatched.setReg flIdx 0x0080).fl = 0x0080 := by rw [fl_setReg, if_pos rfl]
  have hhalt : haltFlag (s.dispatched.setReg flIdx 0x0080).fl = true := by rw [hfl]; decide
  refine ⟨s.dispatched.setReg flIdx 0x0080, ?_, hfl, ?_, rfl,
    sameExcept_trans (sameExcept_dispatched s) (sameExcept_setReg _ flIdx _)⟩
  · rw [run_succ_of_next hclear (step_ldi_regByte ha hd), run_of_haltFlag hhalt]
  · rw [ip_setReg, if_neg flIdx_ne_ipIdx, ip_dispatched]

end Sys2Proof.Machine
end
